-- ==== Sys2Proof/Word.lean ====
section
/-! DEFINITION. The word types of the block (00_scope.md R6: `WORD` is 64 bits; 45_commands.md R176). -/

namespace Sys2Proof

/-- A lane, a seed, the length counter: 64 bits, unsigned, wrapping (R6, R60). -/
abbrev Word := BitVec 64

/-- A byte of the input, of the residual buffer or of a serialised digest. -/
abbrev Byte := BitVec 8

/-- The running value of the CRC step (R72). -/
abbrev Word32 := BitVec 32

/-- The digest register (R20). -/
abbrev Word128 := BitVec 128

end Sys2Proof
end

