-- ==== Sys2Proof/Syntax.lean ====
section
/-! DEFINITION. The command transaction as the host sends it (30_encoding.md R45) and the ten commands
(R47, opcode_table.json). -/

namespace Sys2Proof

/-- The three digest variants (R1, R48). The fourth selector code names none (R146). -/
inductive Variant where
  | h64
  | h128
  | h128c
  deriving DecidableEq, Repr

/-- One command transaction (R45): the 8-bit command word `CMD`, and the operands carried beside it, `SEED`
and `PAYLOAD`. An operand that the command does not take is ignored; one the host does not send stands here
as 0 or as the empty string (log entry 6). -/
structure Command where
  cmd : Byte
  seed : Word
  payload : List Byte
  deriving DecidableEq, Repr

/-- The ten commands, in the order of opcode_table.json, with the operands each takes. -/
inductive Instr where
  /-- `INIT.H64` (R128) -/
  | initH64 (seed : Word)
  /-- `INIT.H128` (R129) -/
  | initH128 (seed : Word)
  /-- `INIT.H128C` (R130) -/
  | initH128C (seed : Word)
  /-- `UPDATE` (R131) -/
  | update (payload : List Byte)
  /-- `FINAL` (R134) -/
  | final
  /-- `RESET` (R135) -/
  | reset (seed : Word)
  /-- `HASH.H64` (R136) -/
  | hashH64 (seed : Word) (payload : List Byte)
  /-- `HASH.H128` (R137) -/
  | hashH128 (seed : Word) (payload : List Byte)
  /-- `HASH.H128C` (R138) -/
  | hashH128C (seed : Word) (payload : List Byte)
  /-- `CAPS` (R139) -/
  | caps
  deriving DecidableEq, Repr

/-- The byte string a command carries; the empty one where it takes none (R45). -/
def Instr.payload : Instr → List Byte
  | .initH64 _ => []
  | .initH128 _ => []
  | .initH128C _ => []
  | .update c => c
  | .final => []
  | .reset _ => []
  | .hashH64 _ c => c
  | .hashH128 _ c => c
  | .hashH128C _ c => c
  | .caps => []

end Sys2Proof
end

