-- ==== Sys2Proof/WellFormed.lean ====
section
/-! DEFINITION. Which command terms the transaction format can carry (30_encoding.md R45). -/

namespace Sys2Proof

/-- The one bound the format puts on an operand beyond its type: a payload has fewer than 2^64 bytes
(R45, R131). A seed is a 64-bit word by its type; a variant code 3 is no term (R146). -/
def Instr.wellFormed (i : Instr) : Bool :=
  decide (i.payload.length < 2 ^ 64)

end Sys2Proof
end

