-- ==== Sys2Proof/Decode.lean ====
section
/-! DEFINITION. The decoder of 30_encoding.md R58, the encoder written from the table of R47, and the reading
of an opcode-table word. -/

namespace Sys2Proof

/-- `CMD[7:6]`, the reserved field (R46). -/
def rsvField (w : Byte) : BitVec 2 := w.extractLsb' 6 2

/-- `CMD[5:4]`, the variant selector (R46, R48). -/
def varField (w : Byte) : BitVec 2 := w.extractLsb' 4 2

/-- `CMD[3:0]`, the operation code (R46, R47). -/
def opField (w : Byte) : BitVec 4 := w.extractLsb' 0 4

/-- The outcome of decoding (R58): one of the commands, or one of the two kinds of reserved word. -/
inductive Decoded where
  /-- a legal command word with its operands -/
  | instr (i : Instr)
  /-- `BadVariant`: `INIT` or `HASH` with selector 3 (R50, R146) -/
  | badVariant
  /-- `BadCmd`: every other reserved word (R50, R147) -/
  | badCmd
  deriving DecidableEq, Repr

/-- `INIT(variant_of(var))`, `BadVariant` for selector 3 (R58). -/
def decodeInit (var : Nat) (seed : Word) : Decoded :=
  match var with
  | 0 => .instr (.initH64 seed)
  | 1 => .instr (.initH128 seed)
  | 2 => .instr (.initH128C seed)
  | _ => .badVariant

/-- `HASH(variant_of(var))`, `BadVariant` for selector 3 (R58). -/
def decodeHash (var : Nat) (seed : Word) (payload : List Byte) : Decoded :=
  match var with
  | 0 => .instr (.hashH64 seed payload)
  | 1 => .instr (.hashH128 seed payload)
  | 2 => .instr (.hashH128C seed payload)
  | _ => .badVariant

/-- A command that takes no variant: legal only with `var = 0` (R46, R58). -/
def decodePlain (var : Nat) (i : Instr) : Decoded :=
  if var = 0 then .instr i else .badCmd

/-- The decoder of R58: total on every command word, with the operands that came beside the word. -/
def decode (c : Command) : Decoded :=
  if rsvField c.cmd ≠ 0 then .badCmd
  else
    let var := (varField c.cmd).toNat
    match (opField c.cmd).toNat with
    | 1 => decodeInit var c.seed
    | 2 => decodePlain var (.update c.payload)
    | 3 => decodePlain var .final
    | 4 => decodePlain var (.reset c.seed)
    | 5 => decodeHash var c.seed c.payload
    | 6 => decodePlain var .caps
    | _ => .badCmd

/-- The transaction of a command: its word from the table of R47, an operand it does not take 0 or empty. -/
def encode : Instr → Command
  | .initH64 seed => { cmd := 0x01, seed := seed, payload := [] }
  | .initH128 seed => { cmd := 0x11, seed := seed, payload := [] }
  | .initH128C seed => { cmd := 0x21, seed := seed, payload := [] }
  | .update payload => { cmd := 0x02, seed := 0, payload := payload }
  | .final => { cmd := 0x03, seed := 0, payload := [] }
  | .reset seed => { cmd := 0x04, seed := seed, payload := [] }
  | .hashH64 seed payload => { cmd := 0x05, seed := seed, payload := payload }
  | .hashH128 seed payload => { cmd := 0x15, seed := seed, payload := payload }
  | .hashH128C seed payload => { cmd := 0x25, seed := seed, payload := payload }
  | .caps => { cmd := 0x06, seed := 0, payload := [] }

/-- The transaction whose bits are `w`, of which the opcode table numbers the lowest `nbits`: the command word
is bits 7:0 and every operand bit is 0 (a seed of 0, an empty payload). The format has one 8-bit word
(R46, R51): a number with a bit above it is no command word (log entry 8). -/
def tableCommand (nbits w : Nat) : Option Command :=
  let v := w % 2 ^ nbits
  if v < 256 then some { cmd := BitVec.ofNat 8 v, seed := 0, payload := [] } else none

/-- The command the decoder reads from an opcode-table word. -/
def decodeTableWord (nbits w : Nat) : Option Instr :=
  match tableCommand nbits w with
  | none => none
  | some c =>
    match decode c with
    | .instr i => some i
    | .badVariant => none
    | .badCmd => none

end Sys2Proof
end

