-- ==== Sys2Proof/Config.lean ====
section
/-! DEFINITION. What a launch fixes and no command changes: the parameter record `P` (00_scope.md R8, R9)
and the answer of the capability probe (44_dispatcher.md R118). -/

namespace Sys2Proof

/-- `BLOCK`: 32 bytes for all three variants (R6). -/
abbrev blockBytes : Nat := 32

/-- `BUFSZ`: the residual buffer's size, `BLOCK - 1` bytes (R6, R16). -/
abbrev bufBytes : Nat := 31

/-- The parameter record `P` (R8): every number of the algorithm, field by field as in the table of R9.
It is configuration: no command reads it as state and none writes it. `tailSh[w - 1]` is the table's
`TAIL_SH[w]`. -/
structure Params where
  rMix : Nat
  tailSh : Vector Nat 8
  polyR : Word32
  s64Add : Vector Word 4
  s64Mul : Vector Word 4
  b64A : Vector Word 4
  b64B : Vector Word 4
  f64A : Vector Word 2
  f64B : Vector Word 2
  f64Rot : Nat
  t64A : Vector Word 4
  t64B : Vector Word 4
  a64S1 : Nat
  a64M : Word
  a64S2 : Nat
  s128Add : Vector Word 2
  s128Mul : Vector Word 2
  b128A : Vector Word 4
  b128B : Vector Word 4
  t128A : Vector Word 4
  t128B : Vector Word 4
  x128A : Vector Word 2
  x128B : Vector Word 2
  a128S1 : Vector Nat 2
  a128M : Vector Word 2
  a128S2 : Vector Nat 2
  s128cAdd : Vector Word 2
  s128cMul : Vector Word 2
  b128cA : Vector Word 4
  b128cB : Vector Word 4
  t128cB : Vector Word 4
  x128cA : Vector Word 2
  x128cB : Vector Word 2
  a128cS1 : Vector Nat 2
  a128cM : Vector Word 2
  a128cS2 : Vector Nat 2
  deriving DecidableEq, Repr

/-- A rotation amount of `P`: the type `rot` of R9. -/
abbrev isRot (n : Nat) : Prop := n ≤ 63

/-- A shift amount of `P`: the type `sh` of R9. -/
abbrev isShift (n : Nat) : Prop := 1 ≤ n ∧ n ≤ 63

/-- The 64-bit constants of the record that `H64` uses (R9). -/
def Params.words64 (p : Params) : List Word :=
  p.s64Add.toList ++ p.s64Mul.toList ++ p.b64A.toList ++ p.b64B.toList ++ p.f64A.toList ++ p.f64B.toList ++
    p.t64A.toList ++ p.t64B.toList ++ [p.a64M]

/-- The 64-bit constants of the record that `H128` uses (R9). -/
def Params.words128 (p : Params) : List Word :=
  p.s128Add.toList ++ p.s128Mul.toList ++ p.b128A.toList ++ p.b128B.toList ++ p.t128A.toList ++ p.t128B.toList ++
    p.x128A.toList ++ p.x128B.toList ++ p.a128M.toList

/-- The 64-bit constants of the record that `H128C` uses (R9). -/
def Params.words128c (p : Params) : List Word :=
  p.s128cAdd.toList ++ p.s128cMul.toList ++ p.b128cA.toList ++ p.b128cB.toList ++ p.t128cB.toList ++
    p.x128cA.toList ++ p.x128cB.toList ++ p.a128cM.toList

/-- Two lists of constants without a common member. -/
abbrev disjointWords (a b : List Word) : Prop := (a.all fun w => !b.contains w) = true

/-- The types `rot` and `sh` of the fields of the record (R9). -/
abbrev Params.typed (p : Params) : Prop :=
  isRot p.rMix ∧ isRot p.f64Rot ∧ (∀ i : Fin 8, isShift p.tailSh[i]) ∧
  isShift p.a64S1 ∧ isShift p.a64S2 ∧
  ∀ k : Fin 2, isShift p.a128S1[k] ∧ isShift p.a128S2[k] ∧ isShift p.a128cS1[k] ∧ isShift p.a128cS2[k]

/-- The constraints of R9 on the seed constants: at seed 0, where lane `i` starts as `ADD[i] * MUL[i]`, no two
lanes of a variant are equal. For the 128-bit variants R9 writes the inequality out; for `H64` it asks that the
seed is "not simply" broadcast "into each lane", read as 95_test_vectors.md 2.3 and 90_conflicts.md C8 read it
(DEDUCED, log entry 17). -/
abbrev Params.lanesDiverge (p : Params) : Prop :=
  (∀ i j : Fin 4, i ≠ j → p.s64Add[i] * p.s64Mul[i] ≠ p.s64Add[j] * p.s64Mul[j]) ∧
  p.s128Add[0] * p.s128Mul[0] ≠ p.s128Add[1] * p.s128Mul[1] ∧
  p.s128cAdd[0] * p.s128cMul[0] ≠ p.s128cAdd[1] * p.s128cMul[1]

/-- The constraint of R9 across the record: each variant's constants are "distinct and non-overlapping", read
as: no 64-bit constant of one variant is one of another (DEDUCED, log entry 17). -/
abbrev Params.constantsDisjoint (p : Params) : Prop :=
  disjointWords p.words64 p.words128 ∧ disjointWords p.words64 p.words128c ∧
  disjointWords p.words128 p.words128c

/-- A record that has the types of R9 and meets its constraints. -/
abbrev Params.wf (p : Params) : Prop :=
  p.typed ∧ p.lanesDiverge ∧ p.constantsDisjoint

/-- The answer of the environment to the capability probe (R118): whether the query could be made, and the
two answers, meaningful when it could. Constant from hardware reset to hardware reset. -/
structure Probe where
  ok : Bool
  simd : Bool
  crc : Bool
  deriving DecidableEq, Repr

end Sys2Proof
end

