-- ==== Sys2Proof/Machine/Reference.lean ====
section
/-! DEFINITION. `REF`, the reference instance of the parameter record (00_scope.md R9), the value of `P` at a
launch that names no other (70_reset_and_hazards.md R170). -/

namespace Sys2Proof.Machine

/-- The column `REF` of the table of R9. -/
def refParams : Params where
  rMix := 29
  tailSh := #v[37, 48, 41, 26, 33, 44, 51, 55]
  polyR := 0x82F63B78
  s64Add := #v[0xA2AA033B, 0x62992FC1, 0x30BC5B29, 0xD6D018F5]
  s64Mul := #v[0xD6D018F5, 0xA2AA033B, 0x62992FC1, 0x30BC5B29]
  b64A := #v[0xD6D018F5, 0xA2AA033B, 0x62992FC1, 0x30BC5B29]
  b64B := #v[0xA2AA033B, 0x62992FC1, 0x30BC5B29, 0xD6D018F5]
  f64A := #v[0xD6D018F5, 0xA2AA033B]
  f64B := #v[0xA2AA033B, 0xD6D018F5]
  f64Rot := 37
  t64A := #v[0x62992FC1, 0x30BC5B29, 0xD6D018F5, 0xA2AA033B]
  t64B := #v[0x30BC5B29, 0xD6D018F5, 0xA2AA033B, 0x62992FC1]
  a64S1 := 28
  a64M := 0xD6D018F5
  a64S2 := 29
  s128Add := #v[0xC83A91E1, 0x8648DBDB]
  s128Mul := #v[0x2F5870A5, 0x7BDEC03B]
  b128A := #v[0xC83A91E1, 0x8648DBDB, 0x7BDEC03B, 0x2F5870A5]
  b128B := #v[0x8648DBDB, 0x7BDEC03B, 0x2F5870A5, 0xC83A91E1]
  t128A := #v[0x7BDEC03B, 0x2F5870A5, 0xC83A91E1, 0x8648DBDB]
  t128B := #v[0x2F5870A5, 0xC83A91E1, 0x8648DBDB, 0x7BDEC03B]
  x128A := #v[0xC83A91E1, 0x7BDEC03B]
  x128B := #v[0x8648DBDB, 0x2F5870A5]
  a128S1 := #v[28, 29]
  a128M := #v[0xC83A91E1, 0x8648DBDB]
  a128S2 := #v[29, 28]
  s128cAdd := #v[0xEE783E2F, 0xAD07C493]
  s128cMul := #v[0x2E4B2E1B, 0x797A90BB]
  b128cA := #v[0xEE783E2F, 0xAD07C493, 0x797A90BB, 0x2E4B2E1B]
  b128cB := #v[0xAD07C493, 0x797A90BB, 0x2E4B2E1B, 0xEE783E2F]
  t128cB := #v[0x2E4B2E1B, 0xEE783E2F, 0xAD07C493, 0x797A90BB]
  x128cA := #v[0xEE783E2F, 0x797A90BB]
  x128cB := #v[0xAD07C493, 0x2E4B2E1B]
  a128cS1 := #v[28, 29]
  a128cM := #v[0xEE783E2F, 0xAD07C493]
  a128cS2 := #v[29, 28]

end Sys2Proof.Machine
end

