-- ==== Sys2Proof/Machine/State.lean ====
section
/-! DEFINITION. The state of the block (10_state.md): the fields of one engine (R10), the feature dispatcher
(R21), and beside them the model's own fields, the launch arguments and the responses (70_reset_and_hazards.md
R168, R170). A field that holds no value (R26) is `none`: an Option here is the spec's own state. -/

namespace Sys2Proof.Machine

/-- The residual buffer as the bytes that hold a value: (index, byte) pairs, indices strictly rising
(R16, R30). An unlisted index holds no value (R26). -/
abbrev Memory := List Host.Cell

/-- The engine's life cycle (R13). -/
inductive Phase where
  /-- `UNCONF`: no engine constructed since hardware reset -/
  | unconf
  /-- `EMPTY`: constructed, nothing fed -/
  | empty
  /-- `ACCUM`: fed -/
  | accum
  /-- `FINAL`: finalised, the digest held -/
  | final
  deriving DecidableEq, Repr

/-- The engine's mixing path (R19). -/
structure Path where
  simd : Bool
  crc : Bool
  deriving DecidableEq, Repr

/-- The capability booleans (R21). -/
structure Caps where
  simd : Bool
  crc : Bool
  deriving DecidableEq, Repr

/-- The status of a response (R53); codes 6 and 7 are never produced (U6) and have no constructor. -/
inductive Status where
  | ok
  | errFinalized
  | errRefinalize
  | errUnconfigured
  | errBadVariant
  | errBadCmd
  deriving DecidableEq, Repr

/-- The value field of a response (R52). -/
inductive RespValue where
  /-- the digest's bytes in serialisation order (R55) -/
  | digest (bytes : List Byte)
  /-- the capability bits, bit 0 `simd`, bit 1 `crc` (R54) -/
  | caps (bits : BitVec 2)
  deriving DecidableEq, Repr

/-- One response: status and value, the value absent where the command has none (R52). -/
structure Response where
  status : Status
  value : Option RespValue
  deriving DecidableEq, Repr

/-- The fields of one engine (R10). `none` is "holds no value" (R26). -/
structure Engine where
  /-- `variant` (R12) -/
  variant : Option Variant
  /-- `phase` (R13) -/
  phase : Phase
  /-- `L[0]`, `lo` in the 128-bit variants (R14, R15) -/
  l0 : Option Word
  /-- `L[1]`, `hi` in the 128-bit variants (R14, R15) -/
  l1 : Option Word
  /-- `L[2]`, in use in variant `H64` only (R14, R15) -/
  l2 : Option Word
  /-- `L[3]`, in use in variant `H64` only (R14, R15) -/
  l3 : Option Word
  /-- `buf` (R16) -/
  buf : Memory
  /-- `len` (R17) -/
  len : Option Word
  /-- `path` (R19) -/
  path : Option Path
  /-- `digest` (R20) -/
  digest : Option Word128
  deriving DecidableEq, Repr

/-- The feature dispatcher (R21). -/
structure Dispatcher where
  capsValid : Bool
  caps : Option Caps
  deriving DecidableEq, Repr

/-- One engine, the dispatcher, and the model's own fields: the launch arguments `params` (`P`, R8) and `probe`
(R118), which no command writes; `pending`, the commands the host has still to issue, and `responses`, those
it has received, oldest first (R168). -/
structure State where
  engine : Engine
  dispatcher : Dispatcher
  params : Params
  probe : Probe
  pending : List Command
  responses : List Response
  deriving DecidableEq, Repr

/-- A field that can hold no value (R26). -/
inductive Field where
  | variant
  | lane (i : Fin 4)
  | buf (i : Nat)
  | len
  | path
  | digest
  | caps
  deriving DecidableEq, Repr

/-- Why the model stops with a fault. The hardware has no faults (R142); both are raised by the shared
operations of `Machine/Ops.lean`, and only in states that no run from reset reaches. -/
inductive Fault where
  /-- A read of a field that holds no value: raised by `need` and the reads over it, as U5 asks. Safe: the
  spec has no rule that reads such a field (R26), so the stop hides no behaviour. -/
  | noValue (f : Field)
  /-- A buffer index above 30: raised by `memByte` and `memWrite` (R30). Safe: no rule uses one. -/
  | badIndex (i : Nat)
  deriving DecidableEq, Repr

/-- Why the model has no step for a command. -/
inductive Refusal where
  /-- An instruction without a meaning. Raised by no arm of `exec`. Safe. -/
  | notModelled (mnemonic : String)
  /-- A payload of 2^64 bytes or more, which the transaction format cannot carry (R45). Raised by `issue`.
  Safe: no host can send such a command. -/
  | payloadTooLong
  deriving DecidableEq, Repr

/-- An engine at hardware reset: phase `UNCONF`, every other field without a value (R25). -/
def Engine.reset : Engine where
  variant := none
  phase := .unconf
  l0 := none
  l1 := none
  l2 := none
  l3 := none
  buf := []
  len := none
  path := none
  digest := none

/-- The dispatcher at hardware reset: detection has not run (R25, R161). -/
def Dispatcher.reset : Dispatcher where
  capsValid := false
  caps := none

/-- The machine at hardware reset (R25, R159) and at launch (R170): `P` is `REF`, the default R170 names (log
entry 3); the probe answer is a launch argument that the spec leaves open and the model sets to "the query
failed" (DESIGN CHOICE, log entry 4); no command has been handed over yet (log entry 5). -/
def State.reset : State where
  engine := Engine.reset
  dispatcher := Dispatcher.reset
  params := refParams
  probe := { ok := false, simd := false, crc := false }
  pending := []
  responses := []

end Sys2Proof.Machine
end

