-- ==== Sys2Proof/Machine/Flags.lean ====
section
/-! DEFINITION. The block has no status flags and no condition codes (10_state.md R22): what takes their place
is the status of a command's response, decided by `phase` before any effect (60_exceptions.md R150). Here are
the rows of the acceptance table that can refuse a legal command (45_commands.md R127). -/

namespace Sys2Proof.Machine

/-- The row `UPDATE` of R127 (R143, R145). -/
def updateStatus : Phase → Status
  | .unconf => .errUnconfigured
  | .empty => .ok
  | .accum => .ok
  | .final => .errFinalized

/-- The row `FINAL` of R127 (R144, R145). -/
def finalStatus : Phase → Status
  | .unconf => .errUnconfigured
  | .empty => .ok
  | .accum => .ok
  | .final => .errRefinalize

/-- The row `RESET` of R127 (R145). -/
def resetStatus : Phase → Status
  | .unconf => .errUnconfigured
  | .empty => .ok
  | .accum => .ok
  | .final => .ok

end Sys2Proof.Machine
end

