-- ==== Sys2Proof/Machine/Primitives.lean ====
section
/-! DEFINITION. The mixing primitives of 40_primitives.md: pure functions over unsigned words (R76). Those
that use a number of the algorithm take the parameter record `P` as an argument. -/

namespace Sys2Proof.Machine

/-- `add64`: addition modulo 2^64 (R61). -/
def add64 (a b : Word) : Word := a + b

/-- `mul64`: the low 64 bits of the product (R62). -/
def mul64 (a b : Word) : Word := a * b

/-- `rotr64`: circular right rotation, the amount taken modulo 64 (R65). -/
def rotr64 (x : Word) (n : Nat) : Word :=
  let m := n % 64
  if m = 0 then x else (x >>> m) + (x <<< (64 - m))

/-- `rotl64`: circular left rotation, the amount taken modulo 64 (R66). -/
def rotl64 (x : Word) (n : Nat) : Word := rotr64 x ((64 - n % 64) % 64)

/-- The number a byte string stands for, least significant byte first (R31). -/
def leNat : List Byte → Nat
  | [] => 0
  | b :: bs => b.toNat + 256 * leNat bs

/-- `load_le`: `w` bytes of `s` from offset `o`, little-endian, zero-extended to 64 bits (R67, R33). Its
arguments meet `1 ≤ w ≤ 8` and `o + w ≤ |s|`; on others the value is that of the bytes there are (U12). -/
def loadLE (s : List Byte) (o w : Nat) : Word := BitVec.ofNat 64 (leNat ((s.drop o).take w))

/-- Byte `i` of the little-endian serialisation of a number (R78). -/
def leByte (v i : Nat) : Byte := BitVec.ofNat 8 (v / 2 ^ (8 * i))

/-- `store_le`: the `n` bytes of `v`, least significant first (R78). -/
def storeLE (v n : Nat) : List Byte := (List.range n).map (leByte v)

/-- `mix`: multiply the word, rotate, add to the accumulator, multiply (R68). -/
def mix (p : Params) (acc w cA cB : Word) : Word :=
  mul64 (add64 acc (rotr64 (mul64 w cA) p.rMix)) cB

/-- `xsr`: the xor-shift (R69). -/
def xsr (x : Word) (s : Nat) : Word := x ^^^ (x >>> s)

/-- `aval`: xor-shift, multiply, xor-shift (R75). -/
def aval (h : Word) (s1 : Nat) (m : Word) (s2 : Nat) : Word := xsr (mul64 (xsr h s1) m) s2

/-- `TAIL_SH[w]` for a load of `w` bytes, `w` in 1..8 (R9, R70). No plan holds another width (R71, U12). -/
def tailShift (p : Params) (w : Nat) : Nat := (p.tailSh[w - 1]?).getD 0

/-- `tailstep`: the mix-based tail step of `H64` and `H128`, keyed by the load width (R70). -/
def tailstep (p : Params) (acc word cA cB : Word) (w : Nat) : Word :=
  xsr (mix p acc word cA cB) (tailShift p w)

/-- One load of the tail plan: its number, the offset of its first byte and its width in bytes (R71). -/
structure Load where
  j : Fin 4
  off : Nat
  width : Nat
  deriving DecidableEq, Repr

/-- `plan(r)`: a full word at every multiple of 8 the residual reaches, then the short word of what is left,
in ascending order (R71): load `j` takes the up to 8 bytes from `8 j` on, if there are any. -/
def plan (r : Nat) : List Load :=
  (List.finRange 4).filterMap fun j =>
    let w := min 8 (r - 8 * j.val)
    if w = 0 then none else some { j := j, off := 8 * j.val, width := w }

/-- One bit of the reflected CRC step (R72). -/
def crcBit (poly x : Word32) : Word32 :=
  if x.getLsbD 0 then (x >>> 1) ^^^ poly else x >>> 1

/-- `n` bits of the reflected CRC step (R72). -/
def crcBits (poly : Word32) : Nat → Word32 → Word32
  | 0, x => x
  | n + 1, x => crcBits poly n (crcBit poly x)

/-- `crc32_u8`: the CRC step of one byte, without inversions (R72). -/
def crc32U8 (p : Params) (c : Word32) (b : Byte) : Word32 :=
  crcBits p.polyR 8 (c ^^^ b.setWidth 32)

/-- `crc32_u64`: the byte step over the eight bytes of `d`, least significant first (R73). -/
def crc32U64 (p : Params) (c : Word32) (d : Word) : Word32 :=
  (List.range 8).foldl (fun c i => crc32U8 p c (d.extractLsb' (8 * i) 8)) c

/-- `CRC_UNIT`: the hardware CRC32 instruction, required to return `crc32_u64` (R108). The equality is a named
assumption about the unit (U9, log entry 11). -/
def crcUnit (p : Params) (c : Word32) (d : Word) : Word32 := crc32U64 p c d

/-- `CRC_SOFT`: the software evaluation of the same step (R108). -/
def crcSoft (p : Params) (c : Word32) (d : Word) : Word32 := crc32U64 p c d

/-- `CRC`: the path multiplexer; `pathCrc` is the engine's `path.crc` (R108). -/
def crcMux (p : Params) (pathCrc : Bool) (c : Word32) (d : Word) : Word32 :=
  if pathCrc then crcUnit p c d else crcSoft p c d

/-- `crcstep`: the CRC-based tail step of `H128C`, its CRC evaluated through the multiplexer (R74, R109). The
running value is the low half of the lane; the result is folded into the high half. -/
def crcstep (p : Params) (pathCrc : Bool) (lane word cB : Word) (w : Nat) : Word :=
  let c := crcMux p pathCrc (lane.extractLsb' 0 32) word
  let t := mul64 (lane ^^^ (c.setWidth 64 <<< 32)) cB
  xsr t (tailShift p w)

end Sys2Proof.Machine
end

