-- ==== Sys2Proof/Machine/Hash128.lean ====
section
/-! DEFINITION. The internal steps of the Hash128 engine (42_hash128.md), and the shapes it shares with the
accelerated engine (43_hash128crc.md R105), which differ in their constants. -/

namespace Sys2Proof.Machine

/-- The two lanes of a 128-bit engine, `lo` = `L[0]`, `hi` = `L[1]` (R15). -/
structure Lanes2 where
  lo : Word
  hi : Word
  deriving DecidableEq, Repr

/-- The shape of `SEED128` and `SEED128C` (R94, R106). -/
def seedPair (add mul : Vector Word 2) (seed : Word) : Lanes2 :=
  { lo := mul64 (add64 seed add[0]) mul[0]
    hi := mul64 (add64 seed add[1]) mul[1] }

/-- The shape of `BLOCK128` and `BLOCK128C`: words 0 and 1 go to `lo`, words 2 and 3 to `hi`, each lane in
ascending offset (R95, R107). -/
def blockPair (p : Params) (cA cB : Vector Word 4) (l : Lanes2) (b : List Byte) : Lanes2 :=
  { lo := mix p (mix p l.lo (loadLE b 0 8) cA[0] cB[0]) (loadLE b 8 8) cA[1] cB[1]
    hi := mix p (mix p l.hi (loadLE b 16 8) cA[2] cB[2]) (loadLE b 24 8) cA[3] cB[3] }

/-- The word-to-lane map of the tails: loads 0 and 1 step `lo`, loads 2 and 3 step `hi` (R97, R109). -/
def onLane (j : Fin 4) (f : Word → Word) (l : Lanes2) : Lanes2 :=
  if j.val / 2 = 0 then { l with lo := f l.lo } else { l with hi := f l.hi }

/-- The shape of `XMIX128` and `XMIX128C`: each lane takes in the other, the second in its new form
(R98, R110). -/
def xmixPair (p : Params) (cA cB : Vector Word 2) (l : Lanes2) : Lanes2 :=
  let lo1 := mix p l.lo l.hi cA[0] cB[0]
  { lo := lo1, hi := mix p l.hi lo1 cA[1] cB[1] }

/-- The shape of `AVAL128` and `AVAL128C` (R99, R111). -/
def avalPair (s1 : Vector Nat 2) (m : Vector Word 2) (s2 : Vector Nat 2) (l : Lanes2) : Lanes2 :=
  { lo := aval l.lo s1[0] m[0] s2[0], hi := aval l.hi s1[1] m[1] s2[1] }

/-- The two halves as the digest register holds them: `lo` in bits 63:0, `hi` in bits 127:64 (R100, R112). -/
def joinHalves (l : Lanes2) : Word128 := l.hi ++ l.lo

/-- `SEED128` (R94). -/
def seed128 (p : Params) (seed : Word) : Lanes2 := seedPair p.s128Add p.s128Mul seed

/-- `BLOCK128` (R95). -/
def block128 (p : Params) (l : Lanes2) (b : List Byte) : Lanes2 := blockPair p p.b128A p.b128B l b

/-- One load of `TAIL128` (R97). -/
def tail128Load (p : Params) (res : List Byte) (l : Lanes2) (d : Load) : Lanes2 :=
  onLane d.j (fun v => tailstep p v (loadLE res d.off d.width) p.t128A[d.j] p.t128B[d.j] d.width) l

/-- `TAIL128` (R97). -/
def tail128 (p : Params) (res : List Byte) (l : Lanes2) : Lanes2 :=
  (plan res.length).foldl (tail128Load p res) l

/-- `XMIX128` (R98). -/
def xmix128 (p : Params) (l : Lanes2) : Lanes2 := xmixPair p p.x128A p.x128B l

/-- `AVAL128` (R99). -/
def aval128 (p : Params) (l : Lanes2) : Lanes2 := avalPair p.a128S1 p.a128M p.a128S2 l

/-- The digest `FINAL128` computes: tail, cross-mix, avalanches (R96, R100). -/
def final128 (p : Params) (l : Lanes2) (res : List Byte) : Word128 :=
  joinHalves (aval128 p (xmix128 p (tail128 p res l)))

end Sys2Proof.Machine
end

