-- ==== Sys2Proof/Machine/Hash128C.lean ====
section
/-! DEFINITION. The internal steps of the Hash128-accelerated engine (43_hash128crc.md): the shapes of
`H128` with its own constants and a tail by the CRC step (R105). The block step never uses the CRC (R115). -/

namespace Sys2Proof.Machine

/-- `SEED128C` (R106). -/
def seed128c (p : Params) (seed : Word) : Lanes2 := seedPair p.s128cAdd p.s128cMul seed

/-- `BLOCK128C` (R107). -/
def block128c (p : Params) (l : Lanes2) (b : List Byte) : Lanes2 := blockPair p p.b128cA p.b128cB l b

/-- One load of `TAIL128C`, its CRC on the path the engine holds (R108, R109). -/
def tail128cLoad (p : Params) (pathCrc : Bool) (res : List Byte) (l : Lanes2) (d : Load) : Lanes2 :=
  onLane d.j (fun v => crcstep p pathCrc v (loadLE res d.off d.width) p.t128cB[d.j] d.width) l

/-- `TAIL128C` (R109). -/
def tail128c (p : Params) (pathCrc : Bool) (res : List Byte) (l : Lanes2) : Lanes2 :=
  (plan res.length).foldl (tail128cLoad p pathCrc res) l

/-- `XMIX128C` (R110). -/
def xmix128c (p : Params) (l : Lanes2) : Lanes2 := xmixPair p p.x128cA p.x128cB l

/-- `AVAL128C` (R111). -/
def aval128c (p : Params) (l : Lanes2) : Lanes2 := avalPair p.a128cS1 p.a128cM p.a128cS2 l

/-- The digest `FINAL128C` computes (R112). -/
def final128c (p : Params) (pathCrc : Bool) (l : Lanes2) (res : List Byte) : Word128 :=
  joinHalves (aval128c p (xmix128c p (tail128c p pathCrc res l)))

end Sys2Proof.Machine
end

