-- ==== Sys2Proof/Machine/Hash64.lean ====
section
/-! DEFINITION. The internal steps of the Hash64 engine (41_hash64.md), as functions of the lanes, the
residual bytes and `P`. -/

namespace Sys2Proof.Machine

/-- The four lanes of an `H64` engine, `v0..v3` = `L[0..3]` (R15, R80). -/
structure Lanes4 where
  v0 : Word
  v1 : Word
  v2 : Word
  v3 : Word
  deriving DecidableEq, Repr

/-- `SEED64`: one additive and one multiplicative constant per lane (R81). -/
def seed64 (p : Params) (seed : Word) : Lanes4 :=
  { v0 := mul64 (add64 seed p.s64Add[0]) p.s64Mul[0]
    v1 := mul64 (add64 seed p.s64Add[1]) p.s64Mul[1]
    v2 := mul64 (add64 seed p.s64Add[2]) p.s64Mul[2]
    v3 := mul64 (add64 seed p.s64Add[3]) p.s64Mul[3] }

/-- `BLOCK64`: lane `i` absorbs the word at offset `8 i` of the block (R82). -/
def block64 (p : Params) (l : Lanes4) (b : List Byte) : Lanes4 :=
  { v0 := mix p l.v0 (loadLE b 0 8) p.b64A[0] p.b64B[0]
    v1 := mix p l.v1 (loadLE b 8 8) p.b64A[1] p.b64B[1]
    v2 := mix p l.v2 (loadLE b 16 8) p.b64A[2] p.b64B[2]
    v3 := mix p l.v3 (loadLE b 24 8) p.b64A[3] p.b64B[3] }

/-- `FOLD64`: the four lanes folded to one accumulator (R84). -/
def fold64 (p : Params) (l : Lanes4) : Word :=
  let a := mix p l.v0 l.v2 p.f64A[0] p.f64B[0]
  let b := mix p l.v1 l.v3 p.f64A[1] p.f64B[1]
  a ^^^ rotr64 b p.f64Rot

/-- One load of `TAIL64` (R85). -/
def tail64Load (p : Params) (res : List Byte) (acc : Word) (l : Load) : Word :=
  tailstep p acc (loadLE res l.off l.width) p.t64A[l.j] p.t64B[l.j] l.width

/-- `TAIL64`: the residual bytes mixed into the accumulator along the plan of their number (R85). -/
def tail64 (p : Params) (res : List Byte) (acc : Word) : Word :=
  (plan res.length).foldl (tail64Load p res) acc

/-- `AVAL64` (R86). -/
def aval64 (p : Params) (acc : Word) : Word := aval acc p.a64S1 p.a64M p.a64S2

/-- The digest `FINAL64` computes: fold, tail, avalanche (R87). -/
def final64 (p : Params) (l : Lanes4) (res : List Byte) : Word :=
  aval64 p (tail64 p res (fold64 p l))

end Sys2Proof.Machine
end

