-- ==== Sys2Proof/Machine/Operands.lean ====
section
/-! DEFINITION. The numeric codes of the enumerations and the value forms of a response: what the host sees of
the state as bits and bytes (10_state.md R12, R13; 30_encoding.md R48, R53 to R55). -/

namespace Sys2Proof.Machine

/-- The selector code of a variant (R12, R48). -/
def variantCode : Variant → BitVec 2
  | .h64 => 0
  | .h128 => 1
  | .h128c => 2

/-- The code of a phase (R13). -/
def phaseCode : Phase → BitVec 2
  | .unconf => 0
  | .empty => 1
  | .accum => 2
  | .final => 3

/-- The code of a status (R53). -/
def statusCode : Status → BitVec 3
  | .ok => 0
  | .errFinalized => 1
  | .errRefinalize => 2
  | .errUnconfigured => 3
  | .errBadVariant => 4
  | .errBadCmd => 5

/-- `DIGEST_BYTES` (R6). -/
def digestBytes : Variant → Nat
  | .h64 => 8
  | .h128 => 16
  | .h128c => 16

/-- The digest as the response carries it: 8 or 16 bytes of the register, least significant first
(R32, R55). -/
def digestValue (v : Variant) (d : Word128) : List Byte := storeLE d.toNat (digestBytes v)

/-- The capability bits as the response carries them: bit 0 `simd`, bit 1 `crc` (R54). -/
def capsBits (c : Caps) : BitVec 2 := BitVec.ofBool c.crc ++ BitVec.ofBool c.simd

end Sys2Proof.Machine
end

