-- ==== Sys2Proof/Machine/Ops.lean ====
section
/-! DEFINITION. The operations the commands share: reads of fields, the residual buffer, the lanes, detection,
the engine's internal steps, the response, and the refusal of a command (60_exceptions.md R142), which is what
this hardware has for taking an exception. There is no return from one: nothing is saved (R142). -/

namespace Sys2Proof.Machine

/-- The read of a field that can hold no value (R26, U5). -/
def need {α : Type} (f : Field) : Option α → Except Fault α
  | some v => .ok v
  | none => .error (.noValue f)

/-! ### The residual buffer (R16, R30) -/

/-- The byte the buffer holds at an index, if it holds one. -/
def Memory.read : Memory → Nat → Option Byte
  | [], _ => none
  | (k, v) :: m, a => if k = a then some v else Memory.read m a

/-- The buffer with byte `b` at index `a`, the indices kept rising. -/
def Memory.write : Memory → Nat → Byte → Memory
  | [], a, b => [(a, b)]
  | (k, v) :: m, a, b =>
    if a < k then (a, b) :: (k, v) :: m
    else if a = k then (a, b) :: m
    else (k, v) :: Memory.write m a b

/-- The canonical form of a buffer: indices 0..30, strictly rising (R30). -/
abbrev Memory.wf (m : Memory) : Prop :=
  List.Pairwise (fun a b => a < b) (m.map Prod.fst) ∧ ∀ i ∈ m.map Prod.fst, i < bufBytes

/-- One byte of the buffer: `buf[a]`. -/
def memByte (m : Memory) (a : Nat) : Except Fault Byte :=
  if a < bufBytes then need (.buf a) (Memory.read m a) else .error (.badIndex a)

/-- The bytes `buf[a .. a+n-1]`. -/
def memBytes (m : Memory) : Nat → Nat → Except Fault (List Byte)
  | _, 0 => .ok []
  | a, n + 1 => do
    let b ← memByte m a
    let bs ← memBytes m (a + 1) n
    .ok (b :: bs)

/-- `MemRead(a, n)`: `n` bytes of the buffer as one little-endian word (00_scope.md section 6, R67). -/
def memRead (m : Memory) (a n : Nat) : Except Fault Word := do
  let bs ← memBytes m a n
  .ok (loadLE bs 0 n)

/-- `MemWrite(a, 1, b)`, the only store there is (00_scope.md section 6, R35). -/
def memWrite (m : Memory) (a : Nat) (b : Byte) : Except Fault Memory :=
  if a < bufBytes then .ok (Memory.write m a b) else .error (.badIndex a)

/-! ### The lanes (R14, R15) -/

/-- The four lanes of an `H64` engine. -/
def readLanes4 (e : Engine) : Except Fault Lanes4 := do
  let v0 ← need (.lane 0) e.l0
  let v1 ← need (.lane 1) e.l1
  let v2 ← need (.lane 2) e.l2
  let v3 ← need (.lane 3) e.l3
  .ok { v0 := v0, v1 := v1, v2 := v2, v3 := v3 }

/-- The two lanes of a 128-bit engine. -/
def readLanes2 (e : Engine) : Except Fault Lanes2 := do
  let lo ← need (.lane 0) e.l0
  let hi ← need (.lane 1) e.l1
  .ok { lo := lo, hi := hi }

/-- The write of all four lanes. -/
def putLanes4 (e : Engine) (l : Lanes4) : Engine :=
  { e with l0 := some l.v0, l1 := some l.v1, l2 := some l.v2, l3 := some l.v3 }

/-- The write of `lo` and `hi`. -/
def putLanes2 (e : Engine) (l : Lanes2) : Engine :=
  { e with l0 := some l.lo, l1 := some l.hi }

/-! ### The internal steps of an engine -/

/-- The fill position of the buffer, `len mod 32` (R11, R18): the index at which the next byte is stored and
the number of residual bytes. -/
def fill (len : Word) : Nat := len.toNat % blockBytes

/-- The seed step of a variant: the lanes and `len` (R81, R94, R106); in a 128-bit variant `L[2]` and `L[3]`
hold no value (R15, R94). -/
def seedStep (p : Params) (v : Variant) (seed : Word) (e : Engine) : Engine :=
  match v with
  | .h64 => putLanes4 { e with len := some 0 } (seed64 p seed)
  | .h128 => putLanes2 { e with len := some 0, l2 := none, l3 := none } (seed128 p seed)
  | .h128c => putLanes2 { e with len := some 0, l2 := none, l3 := none } (seed128c p seed)

/-- The block step of a variant (R82, R95, R107). -/
def blockStep (p : Params) (v : Variant) (b : List Byte) (e : Engine) : Except Fault Engine :=
  match v with
  | .h64 => do
    let l ← readLanes4 e
    .ok (putLanes4 e (block64 p l b))
  | .h128 => do
    let l ← readLanes2 e
    .ok (putLanes2 e (block128 p l b))
  | .h128c => do
    let l ← readLanes2 e
    .ok (putLanes2 e (block128c p l b))

/-- `ABSORB`: one byte enters the engine; the 32nd byte of a block runs the block step at once (R132). -/
def absorb (p : Params) (b : Byte) (e : Engine) : Except Fault Engine := do
  let v ← need .variant e.variant
  let len ← need .len e.len
  if fill len = bufBytes then
    let bytes ← memBytes e.buf 0 bufBytes
    let e' ← blockStep p v (bytes ++ [b]) e
    .ok { e' with buf := [], len := some (add64 len 1) }
  else
    let m ← memWrite e.buf (fill len) b
    .ok { e with buf := m, len := some (add64 len 1) }

/-- `ABSORB` of every byte of a chunk, in order (R131). -/
def absorbAll (p : Params) : List Byte → Engine → Except Fault Engine
  | [], e => .ok e
  | b :: bs, e => do
    let e' ← absorb p b e
    absorbAll p bs e'

/-- The residual bytes `buf[0 .. r-1]`, `r = len mod 32` (R18). -/
def residual (e : Engine) : Except Fault (List Byte) := do
  let len ← need .len e.len
  memBytes e.buf 0 (fill len)

/-- The digest that finalisation computes from the engine as it stands, as the register holds it (R87, R100,
R112, R20). Only `H128C` reads `path` (R19). -/
def finalDigest (p : Params) (e : Engine) : Except Fault Word128 := do
  let v ← need .variant e.variant
  let res ← residual e
  match v with
  | .h64 =>
    let l ← readLanes4 e
    .ok ((final64 p l res).setWidth 128)
  | .h128 =>
    let l ← readLanes2 e
    .ok (final128 p l res)
  | .h128c =>
    let path ← need .path e.path
    let l ← readLanes2 e
    .ok (final128c p path.crc l res)

/-! ### The dispatcher (44_dispatcher.md) -/

/-- What the probe answer says of the capabilities: a failed query is no acceleration (R118, R119). -/
def probedCaps (q : Probe) : Caps :=
  if q.ok then { simd := q.simd, crc := q.crc } else { simd := false, crc := false }

/-- `DETECT`, enabled only while `caps_valid = 0` (R118, R120). -/
def detect (q : Probe) (d : Dispatcher) : Dispatcher :=
  if d.capsValid then d else { capsValid := true, caps := some (probedCaps q) }

/-! ### The three phases of a life: construction, feeding, finalisation -/

/-- Construction: detection if it has not run, the variant, the path, the seed step; `buf` and `digest` lose
their values (R128 to R130, R122). -/
def construct (v : Variant) (seed : Word) (s : State) : Except Fault State := do
  let d := detect s.probe s.dispatcher
  let c ← need .caps d.caps
  let e := seedStep s.params v seed s.engine
  .ok { s with
    dispatcher := d
    engine := { e with
      variant := some v, path := some { simd := c.simd, crc := c.crc },
      buf := [], digest := none, phase := .empty } }

/-- Reseeding by `RESET`: `variant` and `path` are kept, the dispatcher is not consulted (R135). -/
def reseed (seed : Word) (s : State) : Except Fault State := do
  let v ← need .variant s.engine.variant
  let e := seedStep s.params v seed s.engine
  .ok { s with engine := { e with buf := [], digest := none, phase := .empty } }

/-- The body of `UPDATE`: every byte absorbed, phase `ACCUM` (R131). -/
def feed (payload : List Byte) (s : State) : Except Fault State := do
  let e ← absorbAll s.params payload s.engine
  .ok { s with engine := { e with phase := .accum } }

/-- The body of `FINAL`: `digest` and `phase` are written and nothing else (R20, R134). -/
def finish (s : State) : Except Fault State := do
  let d ← finalDigest s.params s.engine
  .ok { s with engine := { s.engine with digest := some d, phase := .final } }

/-- The held digest as a response value (R55, R144). -/
def heldDigest (s : State) : Except Fault RespValue := do
  let v ← need .variant s.engine.variant
  let d ← need .digest s.engine.digest
  .ok (.digest (digestValue v d))

/-! ### Responses and refusals -/

/-- The response of a command (R52), handed to the host. -/
def respond (r : Response) (s : State) : State := { s with responses := s.responses ++ [r] }

/-- `raise Misuse(status)`: the command is refused; no field of the engine or of the dispatcher is written, and
the response carries the status and, in the case of R144 alone, a value (R142). -/
def misuse (status : Status) (value : Option RespValue) (s : State) : State :=
  respond { status := status, value := value } s

/-- The end of an accepted command: the state it has reached, with the response `OK`. -/
def answer : Except Fault (State × Option RespValue) → Host.Outcome State Fault Refusal
  | .ok (s, value) => .next (respond { status := .ok, value := value } s)
  | .error f => .fault f

/-- A command whose accepted form responds with no value (R52). -/
def answerPlain (x : Except Fault State) : Host.Outcome State Fault Refusal :=
  answer (x.map fun s => (s, none))

/-- A command whose accepted form responds with the digest it leaves held (R52, R55). -/
def answerDigest (x : Except Fault State) : Host.Outcome State Fault Refusal :=
  answer do
    let s ← x
    let v ← heldDigest s
    .ok (s, some v)

/-- One-shot hashing: construction, feeding, finalisation on this engine in one step (R136). -/
def oneShot (v : Variant) (seed : Word) (payload : List Byte) (s : State) : Except Fault State := do
  let s ← construct v seed s
  let s ← feed payload s
  finish s

end Sys2Proof.Machine
end

