-- ==== Sys2Proof/Machine/Construct.lean ====
section
/-! DEFINITION. The `INIT.*` commands (45_commands.md R128 to R130): accepted in every phase. -/

namespace Sys2Proof.Machine

/-- `INIT.H64 seed` (R128). -/
def execInitH64 (seed : Word) (s : State) : Host.Outcome State Fault Refusal :=
  answerPlain (construct .h64 seed s)

/-- `INIT.H128 seed` (R129). -/
def execInitH128 (seed : Word) (s : State) : Host.Outcome State Fault Refusal :=
  answerPlain (construct .h128 seed s)

/-- `INIT.H128C seed` (R130). -/
def execInitH128C (seed : Word) (s : State) : Host.Outcome State Fault Refusal :=
  answerPlain (construct .h128c seed s)

end Sys2Proof.Machine
end

