-- ==== Sys2Proof/Machine/Feed.lean ====
section
/-! DEFINITION. The `UPDATE` command (45_commands.md R131). -/

namespace Sys2Proof.Machine

/-- `UPDATE payload`: refused in `UNCONF` and `FINAL` before any byte is absorbed (R127, R143, R145). -/
def execUpdate (payload : List Byte) (s : State) : Host.Outcome State Fault Refusal :=
  match updateStatus s.engine.phase with
  | .ok => answerPlain (feed payload s)
  | status => .next (misuse status none s)

end Sys2Proof.Machine
end

