-- ==== Sys2Proof/Machine/Finalize.lean ====
section
/-! DEFINITION. The `FINAL` command (45_commands.md R134, 60_exceptions.md R144). -/

namespace Sys2Proof.Machine

/-- The refusal of a second `FINAL`, which shows the held digest again (R144). -/
def refinalize (s : State) : Host.Outcome State Fault Refusal :=
  match heldDigest s with
  | .ok v => .next (misuse .errRefinalize (some v) s)
  | .error f => .fault f

/-- `FINAL` (R134, R127). -/
def execFinal (s : State) : Host.Outcome State Fault Refusal :=
  match finalStatus s.engine.phase with
  | .ok => answerDigest (finish s)
  | .errRefinalize => refinalize s
  | status => .next (misuse status none s)

end Sys2Proof.Machine
end

