-- ==== Sys2Proof/Machine/OneShot.lean ====
section
/-! DEFINITION. The `HASH.*` commands (45_commands.md R136 to R138): accepted in every phase. -/

namespace Sys2Proof.Machine

/-- `HASH.H64 seed, payload` (R136). -/
def execHashH64 (seed : Word) (payload : List Byte) (s : State) : Host.Outcome State Fault Refusal :=
  answerDigest (oneShot .h64 seed payload s)

/-- `HASH.H128 seed, payload` (R137). -/
def execHashH128 (seed : Word) (payload : List Byte) (s : State) : Host.Outcome State Fault Refusal :=
  answerDigest (oneShot .h128 seed payload s)

/-- `HASH.H128C seed, payload` (R138). -/
def execHashH128C (seed : Word) (payload : List Byte) (s : State) : Host.Outcome State Fault Refusal :=
  answerDigest (oneShot .h128c seed payload s)

end Sys2Proof.Machine
end

