-- ==== Sys2Proof/Machine/Query.lean ====
section
/-! DEFINITION. The `CAPS` command (45_commands.md R139). -/

namespace Sys2Proof.Machine

/-- `CAPS`: detection if it has not run, then the capability bits; no engine field is written (R139, R123). -/
def execCaps (s : State) : Host.Outcome State Fault Refusal :=
  answer do
    let d := detect s.probe s.dispatcher
    let c ← need .caps d.caps
    .ok ({ s with dispatcher := d }, some (.caps (capsBits c)))

end Sys2Proof.Machine
end

