-- ==== Sys2Proof/Machine/Reuse.lean ====
section
/-! DEFINITION. The `RESET` command (45_commands.md R135). -/

namespace Sys2Proof.Machine

/-- `RESET seed`: refused in `UNCONF`, where there is no variant to reseed (R127, R145). -/
def execReset (seed : Word) (s : State) : Host.Outcome State Fault Refusal :=
  match resetStatus s.engine.phase with
  | .ok => answerPlain (reseed seed s)
  | status => .next (misuse status none s)

end Sys2Proof.Machine
end

