-- ==== Sys2Proof/Machine/Dispatch.lean ====
section
/-! DEFINITION. The meaning of every command, one arm per constructor of `Instr`. -/

namespace Sys2Proof.Machine

def exec (i : Instr) (s : State) : Host.Outcome State Fault Refusal :=
  match i with
  | .initH64 seed => Sys2Proof.Machine.execInitH64 seed s
  | .initH128 seed => Sys2Proof.Machine.execInitH128 seed s
  | .initH128C seed => Sys2Proof.Machine.execInitH128C seed s
  | .update payload => Sys2Proof.Machine.execUpdate payload s
  | .final => Sys2Proof.Machine.execFinal s
  | .reset seed => Sys2Proof.Machine.execReset seed s
  | .hashH64 seed payload => Sys2Proof.Machine.execHashH64 seed payload s
  | .hashH128 seed payload => Sys2Proof.Machine.execHashH128 seed payload s
  | .hashH128C seed payload => Sys2Proof.Machine.execHashH128C seed payload s
  | .caps => Sys2Proof.Machine.execCaps s

end Sys2Proof.Machine
end

