-- ==== Sys2Proof/Machine/Issue.lean ====
section
/-! DEFINITION. One command taken from the host: decoded, then refused or executed (45_commands.md R126). -/

namespace Sys2Proof.Machine

/-- The engine takes a command: a reserved word is answered with its status and changes nothing (R50, R146,
R147), before any phase is looked at (R148); a legal one is executed. A payload that the format cannot carry
is no command (R45). -/
def issue (c : Command) (s : State) : Host.Outcome State Fault Refusal :=
  match decode c with
  | .badCmd => .next (misuse .errBadCmd none s)
  | .badVariant => .next (misuse .errBadVariant none s)
  | .instr i => if i.wellFormed then exec i s else .refused .payloadTooLong

/-- The next command of the host's list, in the order issued (R126); with none pending the engine idles and
keeps its state (R157, R168). -/
def takeCommand (s : State) : Host.Outcome State Fault Refusal :=
  match s.pending with
  | [] => .next s
  | c :: rest => issue c { s with pending := rest }

/-- The state in which the host's next command is the opcode-table word `w`, the commands it had still to
issue after it. A number that is no command word changes nothing. -/
def offerTableWord (s : State) (nbits w : Nat) : State :=
  match tableCommand nbits w with
  | some c => { s with pending := c :: s.pending }
  | none => s

end Sys2Proof.Machine
end

