-- ==== Sys2Proof/Machine/Step.lean ====
section
/-! DEFINITION. One step of the machine: one command (00_scope.md R5), and the placing of a command where the
step takes its next one. -/

namespace Sys2Proof.Machine

/-- One step: one command of the host, one response (R5, R126). -/
def step (s : State) : Host.Outcome State Fault Refusal := takeCommand s

/-- The state whose next step runs the opcode-table word `w`: the block fetches nothing (R11), so the word is
handed over as the host's next command (log entry 5). -/
def State.withFetchWord (s : State) (nbits w : Nat) : State := offerTableWord s nbits w

end Sys2Proof.Machine
end

