-- ==== Sys2Proof/Machine/Device.lean ====
section
/-! DEFINITION. Several engines under one dispatcher (60_exceptions.md R156): each has its own command port and
its own state; they share the dispatcher's result and nothing else (44_dispatcher.md R125). Every step of the
device is a step of one engine, as `Machine/Step.lean` defines it. -/

namespace Sys2Proof.Machine

/-- One engine with its port: the commands its host has still to issue and the responses it has given. -/
structure Port where
  engine : Engine
  pending : List Command
  responses : List Response
  deriving DecidableEq, Repr

/-- The device: the shared dispatcher, the launch arguments, and any number of engines (R7, D34). -/
structure Device where
  dispatcher : Dispatcher
  params : Params
  probe : Probe
  ports : List Port
  deriving DecidableEq, Repr

/-- What one engine's commands act on: its own state and the dispatcher (R125). -/
def portState (d : Device) (p : Port) : State where
  engine := p.engine
  dispatcher := d.dispatcher
  params := d.params
  probe := d.probe
  pending := p.pending
  responses := p.responses

/-- The port of an engine after a step. -/
def statePort (s : State) : Port where
  engine := s.engine
  pending := s.pending
  responses := s.responses

/-- The device after engine `k` has reached the state `s`. -/
def putPort (k : Nat) (s : State) (d : Device) : Device :=
  { d with dispatcher := s.dispatcher, ports := d.ports.set k (statePort s) }

/-- One command of engine `k`; where there is no such engine no command can arrive and nothing happens. -/
def stepPort (k : Nat) (d : Device) : Host.Outcome Device Fault Refusal :=
  match d.ports[k]? with
  | none => .next d
  | some p =>
    match step (portState d p) with
    | .next s => .next (putPort k s d)
    | .fault f => .fault f
    | .refused r => .refused r

/-- A device of `n` engines at hardware reset: every engine starts in `UNCONF` (R156), with the launch arguments
of `State.reset`. -/
def deviceReset (n : Nat) : Device where
  dispatcher := Dispatcher.reset
  params := State.reset.params
  probe := State.reset.probe
  ports := List.replicate n { engine := Engine.reset, pending := [], responses := [] }

end Sys2Proof.Machine
end

