-- ==== Sys2Proof/Machine/Functions.lean ====
section
/-! DEFINITION. The three functions as a whole, from seed and bytes to digest (41_hash64.md R88,
42_hash128.md R101, 43_hash128crc.md R116), beside the commands: no command is defined by them. -/

namespace Sys2Proof.Machine

/-- `k` block steps over the first `32 k` bytes of `s`, in order (R83, R88). -/
def blocks {α : Type} (step : α → List Byte → α) : Nat → α → List Byte → α
  | 0, l, _ => l
  | k + 1, l, s => blocks step k (step l (s.take blockBytes)) (s.drop blockBytes)

/-- The bytes after the last full block of `s`: `s[32k ..]` with `k = floor(|s| / 32)` (R88). -/
def residue (s : List Byte) : List Byte := s.drop (blockBytes * (s.length / blockBytes))

/-- `hash64(seed, b)` (R88). -/
def hash64 (p : Params) (seed : Word) (b : List Byte) : Word :=
  final64 p (blocks (block64 p) (b.length / blockBytes) (seed64 p seed) b) (residue b)

/-- `hash128(seed, b)` (R101). -/
def hash128 (p : Params) (seed : Word) (b : List Byte) : Word128 :=
  final128 p (blocks (block128 p) (b.length / blockBytes) (seed128 p seed) b) (residue b)

/-- `hash128c(seed, b)` (R116): the tail's CRC is `crc32_u64`, the value both paths return (R108). -/
def hash128c (p : Params) (seed : Word) (b : List Byte) : Word128 :=
  final128c p false (blocks (block128c p) (b.length / blockBytes) (seed128c p seed) b) (residue b)

end Sys2Proof.Machine
end

