-- ==== Sys2Proof/Machine/Pseudo.lean ====
section
/-! DEFINITION. The pseudo-instructions (30_encoding.md R57) and the assembler's text for commands and
responses (R56): notation of the spec, over the commands, which define the hardware. -/

namespace Sys2Proof.Machine

/-- `INIT.<V> seed`. -/
def initOf (v : Variant) (seed : Word) : Instr :=
  match v with
  | .h64 => .initH64 seed
  | .h128 => .initH128 seed
  | .h128c => .initH128C seed

/-- `HASH.<V> seed, payload`. -/
def hashOf (v : Variant) (seed : Word) (payload : List Byte) : Instr :=
  match v with
  | .h64 => .hashH64 seed payload
  | .h128 => .hashH128 seed payload
  | .h128c => .hashH128C seed payload

/-- The four pseudo-forms of R57. -/
inductive Pseudo where
  /-- `INIT.<V>` without a seed -/
  | init (v : Variant)
  /-- `RESET` without a seed -/
  | reset
  /-- `HASH.<V> <bytes>` without a seed -/
  | hash (v : Variant) (payload : List Byte)
  /-- `UPDATE <b1>, <b2>, ...` -/
  | update (chunks : List (List Byte))
  deriving DecidableEq, Repr

/-- The expansions of R57: a missing seed is 0, an `UPDATE` of several chunks is one `UPDATE` each. -/
def expandPseudo : Pseudo → List Instr
  | .init v => [initOf v 0]
  | .reset => [.reset 0]
  | .hash v payload => [hashOf v 0 payload]
  | .update chunks => chunks.map Instr.update

/-- The name of a variant in the assembler (R56). -/
def variantName : Variant → String
  | .h64 => "H64"
  | .h128 => "H128"
  | .h128c => "H128C"

/-- One hexadecimal digit, the letters from the character `a` on. -/
def hexDigit (a : Char) (n : Nat) : Char := if n < 10 then Char.ofNat (48 + n) else Char.ofNat (a.toNat + n - 10)

/-- Bytes as two-digit hexadecimal numbers separated by spaces (R56). -/
def hexBytes (a : Char) (bs : List Byte) : String :=
  String.intercalate " " (bs.map fun b => String.ofList [hexDigit a (b.toNat / 16), hexDigit a (b.toNat % 16)])

/-- A byte-string operand in its bracket form (R56; letters as in `[00 ff 10]`, log entry 15). -/
def bytesText (bs : List Byte) : String := "[" ++ hexBytes 'a' bs ++ "]"

/-- A command as one line of assembler (R56), the seed in decimal. -/
def asmText : Instr → String
  | .initH64 seed => "INIT.H64 " ++ toString seed.toNat
  | .initH128 seed => "INIT.H128 " ++ toString seed.toNat
  | .initH128C seed => "INIT.H128C " ++ toString seed.toNat
  | .update payload => "UPDATE " ++ bytesText payload
  | .final => "FINAL"
  | .reset seed => "RESET " ++ toString seed.toNat
  | .hashH64 seed payload => "HASH.H64 " ++ toString seed.toNat ++ ", " ++ bytesText payload
  | .hashH128 seed payload => "HASH.H128 " ++ toString seed.toNat ++ ", " ++ bytesText payload
  | .hashH128C seed payload => "HASH.H128C " ++ toString seed.toNat ++ ", " ++ bytesText payload
  | .caps => "CAPS"

/-- The name of a status (R53). -/
def statusName : Status → String
  | .ok => "OK"
  | .errFinalized => "ERR_FINALIZED"
  | .errRefinalize => "ERR_REFINALIZE"
  | .errUnconfigured => "ERR_UNCONFIGURED"
  | .errBadVariant => "ERR_BAD_VARIANT"
  | .errBadCmd => "ERR_BAD_CMD"

/-- A response value as text: digest bytes (letters as in 95_test_vectors.md, log entry 15), or
the capability bits, bit 1 then bit 0 (R56). -/
def valueText : RespValue → String
  | .digest bs => " " ++ hexBytes 'A' bs
  | .caps bits => " caps=" ++ (if bits.getLsbD 1 then "1" else "0") ++ (if bits.getLsbD 0 then "1" else "0")

/-- A response as the spec writes it (R56). -/
def responseText (r : Response) : String :=
  "-> " ++ statusName r.status ++ (match r.value with | some v => valueText v | none => "")

end Sys2Proof.Machine
end

