-- ==== Sys2Proof/Machine/Sequence.lean ====
section
/-! DEFINITION. Command sequences and what a host sees of them: the terms of the properties of 45_commands.md R140
and R141 (streaming equivalence, reset correctness, empty input, misuse detection, parity, determinism). -/

namespace Sys2Proof.Machine

/-- A sequence of commands, each after the response of the one before (R126). -/
def runInstrs : List Instr → State → Host.Outcome State Fault Refusal
  | [], s => .next s
  | i :: is, s =>
    match exec i s with
    | .next t => runInstrs is t
    | .fault f => .fault f
    | .refused r => .refused r

/-- The responses a host receives to a sequence of commands, in order (R140, R141): those given before the
sequence are not among them. `none` if the model stops. -/
def responsesOf (is : List Instr) (s : State) : Option (List Response) :=
  match runInstrs is s with
  | .next t => some (t.responses.drop s.responses.length)
  | .fault _ => none
  | .refused _ => none

/-- The digest bytes a response shows, if it shows any (R55). -/
def shownDigest (r : Response) : Option (List Byte) :=
  match r.value with
  | some (.digest bs) => some bs
  | some (.caps _) => none
  | none => none

/-- The digest shown by the last response to a sequence of commands. -/
def digestAfter (is : List Instr) (s : State) : Option (List Byte) := do
  let rs ← responsesOf is s
  let r ← rs.getLast?
  shownDigest r

/-- The streaming of R141 item 1: `INIT.<V> seed`, one `UPDATE` per chunk, `FINAL`. With no chunk it is the
empty input of item 3. -/
def streamCommands (v : Variant) (seed : Word) (chunks : List (List Byte)) : List Instr :=
  [initOf v seed] ++ chunks.map Instr.update ++ [.final]

/-- Reset correctness for one further sequence (R141 item 2): the host receives the same responses to
`RESET seed` and the sequence on `s` as to `INIT.<V> seed` and the sequence on `u`. -/
def resetActsAsInit (v : Variant) (seed : Word) (is : List Instr) (s u : State) : Prop :=
  ∃ rs, responsesOf (.reset seed :: is) s = some rs ∧ responsesOf (initOf v seed :: is) u = some rs

/-- The response to a misuse of an engine that holds the digest `d` (R141 item 4): `FINAL` is refused and shows
it (R144), `UPDATE` is refused (R143). -/
def misuseResponse (v : Variant) (d : Word128) (i : Instr) : Response :=
  if i = .final then { status := .errRefinalize, value := some (.digest (digestValue v d)) }
  else { status := .errFinalized, value := none }

/-- A host cannot tell two states apart by a sequence of commands (R141 items 5 and 6): it receives the same
responses. -/
def respondAlike (is : List Instr) (s t : State) : Prop :=
  ∃ rs, responsesOf is s = some rs ∧ responsesOf is t = some rs

end Sys2Proof.Machine
end

