-- ==== Sys2Proof/Safety.lean ====
section
/-! DEFINITION. The terms in which the statements speak of safe states and of runs: which fields hold values in
which phase (10_state.md R29), the acceptance table, and states that differ in their path alone. -/

namespace Sys2Proof.Machine

/-- The bytes of a string as buffer contents from index 0 on. -/
def indexed (bs : List Byte) : Memory := bs.mapIdx fun i b => (i, b)

/-- The number of residual bytes by the length counter (R18); 0 where it holds no value. -/
def residualCount (e : Engine) : Nat := (e.len.map fill).getD 0

/-- The row of R29 that `EMPTY`, `ACCUM` and `FINAL` share: variant, path, length and the lanes of the variant
hold values, `L[2]` and `L[3]` hold none outside `H64` (R15), and the buffer holds exactly the bytes
`buf[0 .. r-1]`, `r = len mod 32` (R18). -/
abbrev Engine.configured (e : Engine) : Prop :=
  e.variant.isSome = true ∧ e.path.isSome = true ∧ e.len.isSome = true ∧
  e.l0.isSome = true ∧ e.l1.isSome = true ∧
  (e.variant = some .h64 → e.l2.isSome = true ∧ e.l3.isSome = true) ∧
  (e.variant ≠ some .h64 → e.l2 = none ∧ e.l3 = none) ∧
  e.buf.map Prod.fst = List.range (residualCount e)

/-- The table of R29, with `len = 0` in `EMPTY` (R18) and the upper half of an `H64` digest 0 (R20). -/
abbrev Engine.valid (e : Engine) : Prop :=
  (e.phase = .unconf → e = Engine.reset) ∧
  (e.phase ≠ .unconf → e.configured) ∧
  (e.phase = .empty → e.len = some 0) ∧
  (e.phase = .final → e.digest.isSome = true) ∧
  (e.phase ≠ .final → e.digest = none) ∧
  (e.variant = some .h64 → (e.digest.getD 0).toNat < 2 ^ 64)

/-- The dispatcher holds the probe's capabilities exactly when detection has run (R25, R118, R120). -/
abbrev Dispatcher.valid (q : Probe) (d : Dispatcher) : Prop :=
  d.caps = if d.capsValid then some (probedCaps q) else none

/-- A state in which every field holds a value exactly where R29 and R25 say so, and a constructed engine's
path is the dispatcher's result (R120, R122). -/
abbrev State.valid (s : State) : Prop :=
  s.engine.valid ∧ s.dispatcher.valid s.probe ∧
  (s.engine.phase ≠ .unconf → s.dispatcher.capsValid = true ∧
    s.engine.path = some { simd := (probedCaps s.probe).simd, crc := (probedCaps s.probe).crc })

/-- The held digest is what finalisation computes from the state held beside it (R20). -/
def State.snapshot (s : State) : Prop :=
  s.engine.phase = .final → ∃ d, s.engine.digest = some d ∧ finalDigest s.params s.engine = .ok d

/-- The capabilities a command reads once detection has run: those held, or those the probe answers
(R118, R120). -/
abbrev State.capsAre (s : State) (c : Caps) : Prop :=
  (s.dispatcher.capsValid = true → s.dispatcher.caps = some c) ∧
  (s.dispatcher.capsValid = false →
    c = if s.probe.ok then { simd := s.probe.simd, crc := s.probe.crc } else { simd := false, crc := false })

/-- Whether a command takes the operand `SEED` (R45, R47). -/
def takesSeed : Instr → Bool
  | .initH64 _ => true
  | .initH128 _ => true
  | .initH128C _ => true
  | .update _ => false
  | .final => false
  | .reset _ => true
  | .hashH64 _ _ => true
  | .hashH128 _ _ => true
  | .hashH128C _ _ => true
  | .caps => false

/-- Whether a command takes the operand `PAYLOAD` (R45, R47). -/
def takesPayload : Instr → Bool
  | .initH64 _ => false
  | .initH128 _ => false
  | .initH128C _ => false
  | .update _ => true
  | .final => false
  | .reset _ => false
  | .hashH64 _ _ => true
  | .hashH128 _ _ => true
  | .hashH128C _ _ => true
  | .caps => false

/-- The acceptance table of R127, row by row: the status with which a legal command is answered. -/
def tableStatus : Instr → Phase → Status
  | .initH64 _, _ => .ok
  | .initH128 _, _ => .ok
  | .initH128C _, _ => .ok
  | .update _, .unconf => .errUnconfigured
  | .update _, .empty => .ok
  | .update _, .accum => .ok
  | .update _, .final => .errFinalized
  | .final, .unconf => .errUnconfigured
  | .final, .empty => .ok
  | .final, .accum => .ok
  | .final, .final => .errRefinalize
  | .reset _, .unconf => .errUnconfigured
  | .reset _, .empty => .ok
  | .reset _, .accum => .ok
  | .reset _, .final => .ok
  | .hashH64 _ _, _ => .ok
  | .hashH128 _ _, _ => .ok
  | .hashH128C _ _, _ => .ok
  | .caps, _ => .ok

/-- The acceptance table of R127, row by row: the phase after a legal command. -/
def tablePhase : Instr → Phase → Phase
  | .initH64 _, _ => .empty
  | .initH128 _, _ => .empty
  | .initH128C _, _ => .empty
  | .update _, .empty => .accum
  | .update _, .accum => .accum
  | .update _, ph => ph
  | .final, .empty => .final
  | .final, .accum => .final
  | .final, ph => ph
  | .reset _, .unconf => .unconf
  | .reset _, _ => .empty
  | .hashH64 _ _, _ => .final
  | .hashH128 _ _, _ => .final
  | .hashH128C _ _, _ => .final
  | .caps, ph => ph

/-- Two states that a host that never asks for the capabilities cannot tell apart: equal but for the
dispatcher, the probe answer and the engine's path (R113, R170). -/
abbrev sameButPath (s t : State) : Prop :=
  { s.engine with path := none } = { t.engine with path := none } ∧
  s.params = t.params ∧ s.pending = t.pending ∧ s.responses = t.responses

/-- Every engine of a device is in a valid state with the shared dispatcher. -/
abbrev Device.valid (d : Device) : Prop :=
  ∀ p ∈ d.ports, (portState d p).valid

/-- One command of engine `k`, then one of engine `l`. -/
def stepTwo (k l : Nat) (d : Device) : Host.Outcome Device Fault Refusal :=
  match stepPort k d with
  | .next d' => stepPort l d'
  | .fault f => .fault f
  | .refused r => .refused r

end Sys2Proof.Machine
end

