-- ==== Sys2Proof/Certificates/Slice0/Obligations.lean ====
section
/-! DEFINITION. The statements for the provers. Every statement speaks of every parameter record `P` and every
probe answer, since both stand in the state; none rests on the values that `State.reset` gives them. A field
that holds no value is `none` (log entry 1); the premise `valid` is the table of R29, itself stated to be kept
by every step and to hold at reset. -/

open Sys2Proof Sys2Proof.Machine

/-! ### Encoding and the step -/

/-- The ten command words of R47, each with any operands beside it, decode to the command of their row. -/
def Obligations.CommandWordsDecode : Prop :=
  ∀ (seed : Word) (c : List Byte),
    decode { cmd := 0x01, seed := seed, payload := c } = .instr (.initH64 seed) ∧
    decode { cmd := 0x11, seed := seed, payload := c } = .instr (.initH128 seed) ∧
    decode { cmd := 0x21, seed := seed, payload := c } = .instr (.initH128C seed) ∧
    decode { cmd := 0x02, seed := seed, payload := c } = .instr (.update c) ∧
    decode { cmd := 0x03, seed := seed, payload := c } = .instr .final ∧
    decode { cmd := 0x04, seed := seed, payload := c } = .instr (.reset seed) ∧
    decode { cmd := 0x05, seed := seed, payload := c } = .instr (.hashH64 seed c) ∧
    decode { cmd := 0x15, seed := seed, payload := c } = .instr (.hashH128 seed c) ∧
    decode { cmd := 0x25, seed := seed, payload := c } = .instr (.hashH128C seed c) ∧
    decode { cmd := 0x06, seed := seed, payload := c } = .instr .caps

/-- Decoding what the encoder writes gives the command back, and a transaction that decodes to a command is
the encoder's, but for the operands the command does not take (R45). -/
def Obligations.DecodeEncodeAgree : Prop :=
  (∀ i : Instr, decode (encode i) = .instr i) ∧
  ∀ (c : Command) (i : Instr), decode c = .instr i →
    (encode i).cmd = c.cmd ∧
    (encode i).seed = (if takesSeed i then c.seed else 0) ∧
    (encode i).payload = (if takesPayload i then c.payload else [])

/-- The reserved words and their two kinds (R50, R58), by arithmetic on the word: `rsv` is `cmd / 64`, `var` is
`cmd / 16 % 4`, `op` is `cmd % 16`. -/
def Obligations.ReservedWordsClassified : Prop :=
  ∀ c : Command,
    (decode c = .badCmd ↔
      c.cmd.toNat / 64 ≠ 0 ∨ c.cmd.toNat % 16 = 0 ∨ 7 ≤ c.cmd.toNat % 16 ∨
      ((c.cmd.toNat % 16 = 2 ∨ c.cmd.toNat % 16 = 3 ∨ c.cmd.toNat % 16 = 4 ∨ c.cmd.toNat % 16 = 6) ∧
        c.cmd.toNat / 16 % 4 ≠ 0)) ∧
    (decode c = .badVariant ↔
      c.cmd.toNat / 64 = 0 ∧ (c.cmd.toNat % 16 = 1 ∨ c.cmd.toNat % 16 = 5) ∧ c.cmd.toNat / 16 % 4 = 3)

/-- A step on a reserved word answers `ERR_BAD_CMD` or `ERR_BAD_VARIANT` with no value, whatever the phase and
the operands, and changes nothing else but that the command is taken from the host's list (R146, R147). -/
def Obligations.ReservedWordsRefused : Prop :=
  ∀ (s : State) (c : Command) (rest : List Command), s.pending = c :: rest →
    ((c.cmd.toNat / 64 ≠ 0 ∨ c.cmd.toNat % 16 = 0 ∨ 7 ≤ c.cmd.toNat % 16 ∨
        ((c.cmd.toNat % 16 = 2 ∨ c.cmd.toNat % 16 = 3 ∨ c.cmd.toNat % 16 = 4 ∨ c.cmd.toNat % 16 = 6) ∧
          c.cmd.toNat / 16 % 4 ≠ 0)) →
      step s = .next { s with
        pending := rest, responses := s.responses ++ [{ status := .errBadCmd, value := none }] }) ∧
    (c.cmd.toNat / 64 = 0 ∧ (c.cmd.toNat % 16 = 1 ∨ c.cmd.toNat % 16 = 5) ∧ c.cmd.toNat / 16 % 4 = 3 →
      step s = .next { s with
        pending := rest, responses := s.responses ++ [{ status := .errBadVariant, value := none }] })

/-- When the host's next command decodes to a well-formed instruction, the step is that instruction's meaning
on the state without the command; when there is none, the state stays (that the commands stand in the state as a
list is the model's choice, log entry 5; R126, R157, R168). -/
def Obligations.StepRunsDecodedCommand : Prop :=
  (∀ (s : State) (c : Command) (rest : List Command) (i : Instr),
    s.pending = c :: rest → decode c = .instr i → i.payload.length < 2 ^ 64 →
    step s = exec i { s with pending := rest }) ∧
  ∀ s : State, s.pending = [] → step s = .next s

/-! ### Primitives -/

/-- Bit `i` of `rotr64(x, n)` is bit `(i + n) mod 64` of `x`, for every amount (R65). -/
def Obligations.RotateRightMovesBits : Prop :=
  ∀ (x : Word) (n i : Nat), i < 64 → (rotr64 x n).getLsbD i = x.getLsbD ((i + n) % 64)

/-- `rotl64(x, n) = rotr64(x, (64 - n mod 64) mod 64)`, and its bit `(i + n) mod 64` is bit `i` of `x` (R66). -/
def Obligations.RotateLeftMovesBits : Prop :=
  ∀ (x : Word) (n i : Nat), i < 64 →
    rotl64 x n = rotr64 x ((64 - n % 64) % 64) ∧ (rotl64 x n).getLsbD ((i + n) % 64) = x.getLsbD i

/-- `load_le` is the little-endian sum of its bytes, and its bits from `8 w` on are 0 (R31, R33, R67). -/
def Obligations.LoadIsLittleEndianAndZeroExtends : Prop :=
  ∀ (s : List Byte) (o w : Nat), 1 ≤ w → w ≤ 8 → o + w ≤ s.length →
    (loadLE s o w).toNat = ((List.range w).map fun i => (s.getD (o + i) 0).toNat * 2 ^ (8 * i)).sum ∧
    (loadLE s o w).toNat < 2 ^ (8 * w)

/-- Byte `i` of `store_le(v, n)` is bits `8i+7 .. 8i` of `v`, and on 8 bytes `load_le` is its inverse (R78). -/
def Obligations.StoreIsInverseOfLoad : Prop :=
  (∀ v n i : Nat, i < n →
    (storeLE v n).length = n ∧ ((storeLE v n).getD i 0).toNat = v / 2 ^ (8 * i) % 256) ∧
  (∀ w : Word, loadLE (storeLE w.toNat 8) 0 8 = w) ∧
  ∀ bs : List Byte, bs.length = 8 → storeLE (loadLE bs 0 8).toNat 8 = bs

/-- The bytes of a 128-bit digest: `lo` then `hi`, each least significant byte first; a 64-bit digest in the
register's low half is serialised by its own 8 bytes (R32, R55, R20). -/
def Obligations.DigestSerialisation : Prop :=
  (∀ l : Lanes2, storeLE (joinHalves l).toNat 16 = storeLE l.lo.toNat 8 ++ storeLE l.hi.toNat 8) ∧
  ∀ v : Word, storeLE (v.setWidth 128).toNat 8 = storeLE v.toNat 8

/-- `mix` in arithmetic modulo 2^64 (R68, R60 to R62, R65): with `q` the product of word and `cA` rotated right
by `R_MIX`, the result is `(acc + q) * cB`. -/
def Obligations.MixIsModularArithmetic : Prop :=
  ∀ (p : Params) (acc w cA cB : Word) (x q : Nat),
    x = w.toNat * cA.toNat % 2 ^ 64 →
    q = (x / 2 ^ (p.rMix % 64) + x * 2 ^ (64 - p.rMix % 64)) % 2 ^ 64 →
    (mix p acc w cA cB).toNat = (acc.toNat + q) * cB.toNat % 2 ^ 64

/-- `xsr` is a bijection for every shift in 1..63 (R69). -/
def Obligations.XorShiftIsBijective : Prop :=
  ∀ n : Nat, 1 ≤ n → n ≤ 63 → Function.Bijective fun x : Word => xsr x n

/-- `mix` is a bijection of the accumulator for odd `cB`, and of the word for odd `cA` and odd `cB` (R68). -/
def Obligations.MixIsBijective : Prop :=
  ∀ (p : Params) (cA cB : Word), cB.toNat % 2 = 1 →
    (∀ w : Word, Function.Bijective fun acc : Word => mix p acc w cA cB) ∧
    (cA.toNat % 2 = 1 → ∀ acc : Word, Function.Bijective fun w : Word => mix p acc w cA cB)

/-- `aval` is a bijection for shifts in 1..63 and an odd multiplier (R75). -/
def Obligations.AvalancheIsBijective : Prop :=
  ∀ (s1 s2 : Nat) (m : Word), 1 ≤ s1 → s1 ≤ 63 → 1 ≤ s2 → s2 ≤ 63 → m.toNat % 2 = 1 →
    Function.Bijective fun h : Word => aval h s1 m s2

/-- `crcstep` is a bijection of the lane for a fixed word, an odd constant and shifts of the type R9 gives
them, on either path (R74). -/
def Obligations.CrcStepIsBijective : Prop :=
  ∀ (p : Params) (pathCrc : Bool) (word cB : Word) (w : Nat),
    (∀ i : Fin 8, 1 ≤ p.tailSh[i] ∧ p.tailSh[i] ≤ 63) → 1 ≤ w → w ≤ 8 → cB.toNat % 2 = 1 →
    Function.Bijective fun lane : Word => crcstep p pathCrc lane word cB w

/-- `crc32_u64(c, d)` depends on `c` and the low four bytes of `d` only through `c xor d[31:0]` (R73). -/
def Obligations.CrcOfWordAbsorbsRunningValue : Prop :=
  ∀ (p : Params) (c : Word32) (d : Word), crc32U64 p c d = crc32U64 p 0 (d ^^^ c.setWidth 64)

/-- For each of the 32 residual lengths the plan loads every residual byte exactly once, in order, with widths
1..8 at offsets `8 j`, and no two lengths share a plan (R71). -/
def Obligations.TailPlanCoversResidual : Prop :=
  (∀ r : Fin 32,
    ((plan r.val).flatMap fun l => (List.range l.width).map (l.off + ·)) = List.range r.val ∧
    ∀ l ∈ plan r.val, 1 ≤ l.width ∧ l.width ≤ 8 ∧ l.off = 8 * l.j.val) ∧
  ∀ r r' : Fin 32, plan r.val = plan r'.val → r = r'

/-- Within a block step of `H64` the new `L[i]` depends on the old `L[i]` and on word `i` of the block only
(R83). -/
def Obligations.LanesIndependentInBlock : Prop :=
  ∀ (p : Params) (l m : Lanes4) (a b : List Byte),
    (l.v0 = m.v0 → loadLE a 0 8 = loadLE b 0 8 → (block64 p l a).v0 = (block64 p m b).v0) ∧
    (l.v1 = m.v1 → loadLE a 8 8 = loadLE b 8 8 → (block64 p l a).v1 = (block64 p m b).v1) ∧
    (l.v2 = m.v2 → loadLE a 16 8 = loadLE b 16 8 → (block64 p l a).v2 = (block64 p m b).v2) ∧
    (l.v3 = m.v3 → loadLE a 24 8 = loadLE b 24 8 → (block64 p l a).v3 = (block64 p m b).v3)

/-- For a record that meets the constraints of R9 no two lanes of a variant are equal at seed 0 (R81, R94, R106).
For the 128-bit variants R9 writes this constraint out; for `H64` it is the model's reading of it (log entry
17). -/
def Obligations.LanesDivergeAtSeedZero : Prop :=
  ∀ p : Params, p.wf →
    [(seed64 p 0).v0, (seed64 p 0).v1, (seed64 p 0).v2, (seed64 p 0).v3].Nodup ∧
    (seed128 p 0).lo ≠ (seed128 p 0).hi ∧ (seed128c p 0).lo ≠ (seed128c p 0).hi

/-! ### Construction and reuse -/

/-- `INIT.H64 seed`, in every phase (R128): its word and the whole next state. `c` is the capabilities the dispatcher holds,
or, if detection has not run, those the probe answers. -/
def Obligations.InitH64Effect : Prop :=
  ∀ (seed : Word) (s : State) (c : Caps), s.capsAre c →
    (∀ b, decode { cmd := 0x01, seed := seed, payload := b } = .instr (.initH64 seed)) ∧
    exec (.initH64 seed) s = .next { s with
      dispatcher := { capsValid := true, caps := some c }
      engine :=
        { variant := some .h64
          phase := .empty
          l0 := some ((seed + s.params.s64Add[0]) * s.params.s64Mul[0])
          l1 := some ((seed + s.params.s64Add[1]) * s.params.s64Mul[1])
          l2 := some ((seed + s.params.s64Add[2]) * s.params.s64Mul[2])
          l3 := some ((seed + s.params.s64Add[3]) * s.params.s64Mul[3])
          buf := []
          len := some 0
          path := some { simd := c.simd, crc := c.crc }
          digest := none }
      responses := s.responses ++ [{ status := .ok, value := none }] }

/-- `INIT.H128 seed`, in every phase (R129): its word and the whole next state. -/
def Obligations.InitH128Effect : Prop :=
  ∀ (seed : Word) (s : State) (c : Caps), s.capsAre c →
    (∀ b, decode { cmd := 0x11, seed := seed, payload := b } = .instr (.initH128 seed)) ∧
    exec (.initH128 seed) s = .next { s with
      dispatcher := { capsValid := true, caps := some c }
      engine :=
        { variant := some .h128
          phase := .empty
          l0 := some ((seed + s.params.s128Add[0]) * s.params.s128Mul[0])
          l1 := some ((seed + s.params.s128Add[1]) * s.params.s128Mul[1])
          l2 := none
          l3 := none
          buf := []
          len := some 0
          path := some { simd := c.simd, crc := c.crc }
          digest := none }
      responses := s.responses ++ [{ status := .ok, value := none }] }

/-- `INIT.H128C seed`, in every phase (R130): its word and the whole next state. -/
def Obligations.InitH128CEffect : Prop :=
  ∀ (seed : Word) (s : State) (c : Caps), s.capsAre c →
    (∀ b, decode { cmd := 0x21, seed := seed, payload := b } = .instr (.initH128C seed)) ∧
    exec (.initH128C seed) s = .next { s with
      dispatcher := { capsValid := true, caps := some c }
      engine :=
        { variant := some .h128c
          phase := .empty
          l0 := some ((seed + s.params.s128cAdd[0]) * s.params.s128cMul[0])
          l1 := some ((seed + s.params.s128cAdd[1]) * s.params.s128cMul[1])
          l2 := none
          l3 := none
          buf := []
          len := some 0
          path := some { simd := c.simd, crc := c.crc }
          digest := none }
      responses := s.responses ++ [{ status := .ok, value := none }] }

/-- `RESET seed` outside `UNCONF` (R135): lanes and `len` reseeded by the variant held, `buf` and `digest`
without value, `variant`, `path` and the dispatcher kept: the whole next state. That `L[2]` and `L[3]` end without
a value in the 128-bit variants, from states of every kind, is the model's reading (log entry 12). -/
def Obligations.ResetEffect : Prop :=
  ∀ (seed : Word) (s : State), s.engine.phase ≠ .unconf →
    (s.engine.variant = some .h64 →
      exec (.reset seed) s = .next { s with
        engine := { s.engine with
          phase := .empty, len := some 0, buf := [], digest := none
          l0 := some ((seed + s.params.s64Add[0]) * s.params.s64Mul[0])
          l1 := some ((seed + s.params.s64Add[1]) * s.params.s64Mul[1])
          l2 := some ((seed + s.params.s64Add[2]) * s.params.s64Mul[2])
          l3 := some ((seed + s.params.s64Add[3]) * s.params.s64Mul[3]) }
        responses := s.responses ++ [{ status := .ok, value := none }] }) ∧
    (s.engine.variant = some .h128 →
      exec (.reset seed) s = .next { s with
        engine := { s.engine with
          phase := .empty, len := some 0, buf := [], digest := none
          l0 := some ((seed + s.params.s128Add[0]) * s.params.s128Mul[0])
          l1 := some ((seed + s.params.s128Add[1]) * s.params.s128Mul[1])
          l2 := none
          l3 := none }
        responses := s.responses ++ [{ status := .ok, value := none }] }) ∧
    (s.engine.variant = some .h128c →
      exec (.reset seed) s = .next { s with
        engine := { s.engine with
          phase := .empty, len := some 0, buf := [], digest := none
          l0 := some ((seed + s.params.s128cAdd[0]) * s.params.s128cMul[0])
          l1 := some ((seed + s.params.s128cAdd[1]) * s.params.s128cMul[1])
          l2 := none
          l3 := none }
        responses := s.responses ++ [{ status := .ok, value := none }] })

/-- `RESET` makes the engine, field for field, that of a fresh `INIT` of its variant on any other valid engine
under the same `P` and probe answer (R135, R141 item 2). -/
def Obligations.ResetGivesAFreshEngine : Prop :=
  ∀ (seed : Word) (v : Variant) (s u : State), s.valid → u.valid →
    s.params = u.params → s.probe = u.probe →
    s.engine.phase ≠ .unconf → s.engine.variant = some v →
    ∃ t w, exec (.reset seed) s = .next t ∧ exec (initOf v seed) u = .next w ∧
      t.engine = w.engine ∧ t.dispatcher = w.dispatcher

/-! ### Feeding -/

/-- `UPDATE` on an `H64` engine in its block-wise form (R133, R131): of the residual bytes followed by the
chunk, the full blocks are mixed in order and the rest is buffered; the whole next state. -/
def Obligations.UpdateH64Effect : Prop :=
  ∀ (s : State) (c old : List Byte) (n : Word) (l m : Lanes4),
    s.engine.phase = .empty ∨ s.engine.phase = .accum →
    s.engine.variant = some .h64 → s.engine.len = some n →
    s.engine.l0 = some l.v0 → s.engine.l1 = some l.v1 → s.engine.l2 = some l.v2 → s.engine.l3 = some l.v3 →
    s.engine.buf = indexed old → old.length = n.toNat % 32 →
    m = blocks (block64 s.params) ((old ++ c).length / 32) l (old ++ c) →
    exec (.update c) s = .next { s with
      engine := { s.engine with
        phase := .accum, len := some (n + BitVec.ofNat 64 c.length)
        l0 := some m.v0, l1 := some m.v1, l2 := some m.v2, l3 := some m.v3
        buf := indexed ((old ++ c).drop (32 * ((old ++ c).length / 32))) }
      responses := s.responses ++ [{ status := .ok, value := none }] }

/-- `UPDATE` on an `H128` or `H128C` engine in its block-wise form (R133, R131): the whole next state. -/
def Obligations.UpdateH128Effect : Prop :=
  ∀ (s : State) (c old : List Byte) (n : Word) (l m : Lanes2),
    s.engine.phase = .empty ∨ s.engine.phase = .accum →
    s.engine.len = some n → s.engine.l0 = some l.lo → s.engine.l1 = some l.hi →
    s.engine.buf = indexed old → old.length = n.toNat % 32 →
    (s.engine.variant = some .h128 ∧
        m = blocks (block128 s.params) ((old ++ c).length / 32) l (old ++ c) ∨
      s.engine.variant = some .h128c ∧
        m = blocks (block128c s.params) ((old ++ c).length / 32) l (old ++ c)) →
    exec (.update c) s = .next { s with
      engine := { s.engine with
        phase := .accum, len := some (n + BitVec.ofNat 64 c.length)
        l0 := some m.lo, l1 := some m.hi
        buf := indexed ((old ++ c).drop (32 * ((old ++ c).length / 32))) }
      responses := s.responses ++ [{ status := .ok, value := none }] }

/-- `UPDATE` of one byte, from any state: below position 31 the byte is stored at index `len mod 32` and every
other byte of the buffer, every lane and every other field but `len` and `phase` stays; at position 31 the
block step runs and the buffer holds no bytes (R132, R35). -/
def Obligations.UpdateOneByteFrame : Prop :=
  ∀ (s t : State) (b : Byte) (n : Word),
    s.engine.phase = .empty ∨ s.engine.phase = .accum → s.engine.len = some n →
    exec (.update [b]) s = .next t →
    (fill n < 31 →
      t.engine = { s.engine with phase := .accum, len := some (n + 1), buf := t.engine.buf } ∧
      Memory.read t.engine.buf (fill n) = some b ∧
      ∀ a, a ≠ fill n → Memory.read t.engine.buf a = Memory.read s.engine.buf a) ∧
    (fill n = 31 →
      t.engine = { s.engine with
        phase := .accum, len := some (n + 1), buf := []
        l0 := t.engine.l0, l1 := t.engine.l1, l2 := t.engine.l2, l3 := t.engine.l3 })

/-! ### Finalisation -/

/-- `FINAL` on an `H64` engine (R134, R87): fold, tail of the residual bytes, avalanche; `digest` and `phase`
are written and nothing else, and the 8 bytes are the response. -/
def Obligations.FinalH64Effect : Prop :=
  ∀ (s : State) (res : List Byte) (n : Word) (l : Lanes4),
    s.engine.phase = .empty ∨ s.engine.phase = .accum →
    s.engine.variant = some .h64 → s.engine.len = some n →
    s.engine.l0 = some l.v0 → s.engine.l1 = some l.v1 → s.engine.l2 = some l.v2 → s.engine.l3 = some l.v3 →
    s.engine.buf = indexed res → res.length = n.toNat % 32 →
    exec .final s = .next { s with
      engine := { s.engine with
        phase := .final, digest := some ((final64 s.params l res).setWidth 128) }
      responses := s.responses ++
        [{ status := .ok, value := some (.digest (storeLE (final64 s.params l res).toNat 8)) }] }

/-- `FINAL` on an `H128` or `H128C` engine (R134, R100, R112): tail, cross-mix, avalanches; the digest of
`H128C` is the same on either path (R113). -/
def Obligations.FinalH128Effect : Prop :=
  ∀ (s : State) (res : List Byte) (n : Word) (l : Lanes2) (d : Word128),
    s.engine.phase = .empty ∨ s.engine.phase = .accum →
    s.engine.len = some n → s.engine.l0 = some l.lo → s.engine.l1 = some l.hi →
    s.engine.buf = indexed res → res.length = n.toNat % 32 →
    (s.engine.variant = some .h128 ∧ d = final128 s.params l res ∨
      s.engine.variant = some .h128c ∧ s.engine.path.isSome = true ∧
        d = final128c s.params false l res) →
    exec .final s = .next { s with
      engine := { s.engine with phase := .final, digest := some d }
      responses := s.responses ++ [{ status := .ok, value := some (.digest (storeLE d.toNat 16)) }] }

/-! ### One-shot hashing -/

/-- `HASH.H64 seed, b`, in every phase (R136, R88): the digest is `hash64(seed, b)`, the engine is left as the
three commands leave it; the whole next state. -/
def Obligations.HashH64Effect : Prop :=
  ∀ (seed : Word) (b : List Byte) (s : State) (c : Caps) (m : Lanes4), s.capsAre c →
    m = blocks (block64 s.params) (b.length / 32) (seed64 s.params seed) b →
    exec (.hashH64 seed b) s = .next { s with
      dispatcher := { capsValid := true, caps := some c }
      engine :=
        { variant := some .h64
          phase := .final
          l0 := some m.v0, l1 := some m.v1, l2 := some m.v2, l3 := some m.v3
          buf := indexed (b.drop (32 * (b.length / 32)))
          len := some (BitVec.ofNat 64 b.length)
          path := some { simd := c.simd, crc := c.crc }
          digest := some ((Machine.hash64 s.params seed b).setWidth 128) }
      responses := s.responses ++
        [{ status := .ok, value := some (.digest (storeLE (Machine.hash64 s.params seed b).toNat 8)) }] }

/-- `HASH.H128 seed, b`, in every phase (R137, R101): the whole next state. -/
def Obligations.HashH128Effect : Prop :=
  ∀ (seed : Word) (b : List Byte) (s : State) (c : Caps) (m : Lanes2), s.capsAre c →
    m = blocks (block128 s.params) (b.length / 32) (seed128 s.params seed) b →
    exec (.hashH128 seed b) s = .next { s with
      dispatcher := { capsValid := true, caps := some c }
      engine :=
        { variant := some .h128
          phase := .final
          l0 := some m.lo, l1 := some m.hi, l2 := none, l3 := none
          buf := indexed (b.drop (32 * (b.length / 32)))
          len := some (BitVec.ofNat 64 b.length)
          path := some { simd := c.simd, crc := c.crc }
          digest := some (hash128 s.params seed b) }
      responses := s.responses ++
        [{ status := .ok, value := some (.digest (storeLE (hash128 s.params seed b).toNat 16)) }] }

/-- `HASH.H128C seed, b`, in every phase and for every capability result (R138, R116, R113): the whole next
state. -/
def Obligations.HashH128CEffect : Prop :=
  ∀ (seed : Word) (b : List Byte) (s : State) (c : Caps) (m : Lanes2), s.capsAre c →
    m = blocks (block128c s.params) (b.length / 32) (seed128c s.params seed) b →
    exec (.hashH128C seed b) s = .next { s with
      dispatcher := { capsValid := true, caps := some c }
      engine :=
        { variant := some .h128c
          phase := .final
          l0 := some m.lo, l1 := some m.hi, l2 := none, l3 := none
          buf := indexed (b.drop (32 * (b.length / 32)))
          len := some (BitVec.ofNat 64 b.length)
          path := some { simd := c.simd, crc := c.crc }
          digest := some (hash128c s.params seed b) }
      responses := s.responses ++
        [{ status := .ok, value := some (.digest (storeLE (hash128c s.params seed b).toNat 16)) }] }

/-- Streaming equivalence (R141 item 1, R136): for every variant, `INIT`, one `UPDATE` per chunk however the
input is cut, and `FINAL` end in the engine, the dispatcher and the last response of the one-shot command on
the concatenated input; that response shows a digest, and it is that of the stream of one chunk too. -/
def Obligations.StreamingEqualsOneShot : Prop :=
  ∀ (v : Variant) (seed : Word) (chunks : List (List Byte)) (s : State), s.valid →
    (∃ t u, runInstrs (streamCommands v seed chunks) s = .next t ∧
      exec (hashOf v seed chunks.flatten) s = .next u ∧
      t.engine = u.engine ∧ t.dispatcher = u.dispatcher ∧
      t.responses.getLast? = u.responses.getLast?) ∧
    ∃ bs, digestAfter (streamCommands v seed chunks) s = some bs ∧
      digestAfter (streamCommands v seed [chunks.flatten]) s = some bs ∧
      digestAfter [hashOf v seed chunks.flatten] s = some bs

/-- Reset correctness (R141 item 2): after `RESET` an engine responds to every further sequence of commands as
a fresh engine after `INIT` of its variant does, under the same `P` and probe answer. -/
def Obligations.ResetRespondsAsFreshEngine : Prop :=
  ∀ (seed : Word) (v : Variant) (is : List Instr) (s u : State), s.valid → u.valid →
    s.params = u.params → s.probe = u.probe →
    s.engine.phase ≠ .unconf → s.engine.variant = some v → resetActsAsInit v seed is s u

/-- Empty input (R141 item 3): `INIT` and `FINAL` are accepted and respond with a digest of the variant's
width. -/
def Obligations.EmptyInputHasDigest : Prop :=
  ∀ (v : Variant) (seed : Word) (s : State), s.valid →
    ∃ bs, bs.length = digestBytes v ∧
      responsesOf (streamCommands v seed []) s =
        some [{ status := .ok, value := none }, { status := .ok, value := some (.digest bs) }]

/-- Misuse detection (R141 item 4, R151): on a finalised engine every `UPDATE` and every `FINAL` of any sequence
of them is refused with its own status, and after all of them nothing but the responses has changed. -/
def Obligations.MisuseIsReportedEveryTime : Prop :=
  ∀ (is : List Instr) (s : State) (v : Variant) (d : Word128),
    s.engine.phase = .final → s.engine.variant = some v → s.engine.digest = some d →
    (∀ i ∈ is, i = .final ∨ ∃ c, i = .update c) →
    runInstrs is s = .next { s with responses := s.responses ++ is.map (misuseResponse v d) }

/-- Parity over whole sequences (R141 item 5, R140): to a sequence of commands without `CAPS`, two valid states
that differ in path, dispatcher and probe answer alone respond alike. -/
def Obligations.NoSequenceShowsThePath : Prop :=
  ∀ (is : List Instr) (s t : State), s.valid → t.valid → sameButPath s t → (∀ i ∈ is, i ≠ .caps) →
    respondAlike is s t

/-- Determinism (R141 item 6, R140): one-shot hashing responds alike from any two valid states under the same
`P`, whatever the engine held before, on whatever path, with whatever probe answer; repeated calls included. -/
def Obligations.HashIsAFunctionOfItsOperands : Prop :=
  ∀ (v : Variant) (seed : Word) (b : List Byte) (s u : State), s.valid → u.valid → s.params = u.params →
    respondAlike [hashOf v seed b] s u

/-- While a stream is fed, `len` counts its bytes modulo 2^64 and the buffer holds its bytes after the last
full block, in order (R17, R18). -/
def Obligations.StreamBuffersItsLastBytes : Prop :=
  ∀ (v : Variant) (seed : Word) (chunks : List (List Byte)) (s : State), s.valid →
    ∃ t, runInstrs ([initOf v seed] ++ chunks.map Instr.update) s = .next t ∧
      t.engine.len = some (BitVec.ofNat 64 chunks.flatten.length) ∧
      t.engine.buf = indexed (chunks.flatten.drop (32 * (chunks.flatten.length / 32)))

/-! ### The dispatcher -/

/-- `CAPS`, in every phase (R139, R54): detection if it has not run, then the two bits; no engine field is
written; the whole next state. -/
def Obligations.CapsEffect : Prop :=
  ∀ (s : State) (c : Caps), s.capsAre c →
    exec .caps s = .next { s with
      dispatcher := { capsValid := true, caps := some c }
      responses := s.responses ++
        [{ status := .ok,
           value := some (.caps (BitVec.ofNat 2 (2 * c.crc.toNat + c.simd.toNat))) }] }

/-- Detection runs at most once (R120): once `caps_valid` is 1 no command changes the dispatcher; while it is
0 a command leaves it alone or stores what the probe answers (R118, R119), and `UPDATE`, `FINAL` and `RESET`
leave it alone. -/
def Obligations.DetectionRunsOnce : Prop :=
  ∀ (i : Instr) (s t : State), exec i s = .next t →
    (s.dispatcher.capsValid = true → t.dispatcher = s.dispatcher) ∧
    (s.dispatcher.capsValid = false →
      ((∃ c, i = .update c) ∨ i = .final ∨ (∃ seed, i = .reset seed) → t.dispatcher = s.dispatcher) ∧
      ((∀ c, i ≠ .update c) → i ≠ .final → (∀ seed, i ≠ .reset seed) →
        t.dispatcher =
          { capsValid := true,
            caps := some (if s.probe.ok then { simd := s.probe.simd, crc := s.probe.crc }
              else { simd := false, crc := false }) }))

/-! ### Refusals -/

/-- `UPDATE` on a finalised engine is refused with `ERR_FINALIZED`, whatever the payload, the empty one too; no
field of the engine changes (R143). -/
def Obligations.UpdateAfterFinalRefused : Prop :=
  ∀ (c : List Byte) (s : State), s.engine.phase = .final →
    exec (.update c) s =
      .next { s with responses := s.responses ++ [{ status := .errFinalized, value := none }] }

/-- A second `FINAL` is refused with `ERR_REFINALIZE` and shows the held digest again, 8 or 16 bytes by the
variant; no field of the engine changes (R144). -/
def Obligations.SecondFinalShowsHeldDigest : Prop :=
  ∀ (s : State) (v : Variant) (d : Word128),
    s.engine.phase = .final → s.engine.variant = some v → s.engine.digest = some d →
    exec .final s = .next { s with
      responses := s.responses ++
        [{ status := .errRefinalize,
           value := some (.digest (storeLE d.toNat (if v = .h64 then 8 else 16))) }] }

/-- `UPDATE`, `FINAL` and `RESET` before the first construction are refused with `ERR_UNCONFIGURED` (R145). -/
def Obligations.UnconfiguredEngineRefuses : Prop :=
  ∀ (i : Instr) (s : State), s.engine.phase = .unconf →
    ((∃ c, i = .update c) ∨ i = .final ∨ ∃ seed, i = .reset seed) →
    exec i s =
      .next { s with responses := s.responses ++ [{ status := .errUnconfigured, value := none }] }

/-- Every command gives one response, at the end of the list; a response other than `OK` leaves the engine and
the dispatcher as they were and carries no value, a second `FINAL`'s digest apart; and no command writes the
parameter record, the probe answer or the host's list (R52, R142, R8). -/
def Obligations.OneResponseAndRefusalsChangeNothing : Prop :=
  ∀ (c : Command) (s t : State), issue c s = .next t →
    ∃ r, t.responses = s.responses ++ [r] ∧
      t.params = s.params ∧ t.probe = s.probe ∧ t.pending = s.pending ∧
      (r.status ≠ .ok → t.engine = s.engine ∧ t.dispatcher = s.dispatcher) ∧
      (r.status ≠ .ok → r.status ≠ .errRefinalize → r.value = none)

/-- The acceptance table (R127): from a valid state every command completes, with the status and the phase of
its row and column. -/
def Obligations.AcceptanceTableHolds : Prop :=
  ∀ (i : Instr) (s : State), s.valid →
    ∃ t r, exec i s = .next t ∧ t.responses = s.responses ++ [r] ∧
      r.status = tableStatus i s.engine.phase ∧
      t.engine.phase = tablePhase i s.engine.phase

/-! ### Frames, from every state -/

/-- What `UPDATE`, `FINAL`, `RESET` and `CAPS` leave alone, from any state: `UPDATE` and `RESET` keep the
variant and the path and do not touch the dispatcher, `UPDATE` keeps the digest field, `FINAL` writes `digest`
and `phase` alone, `CAPS` writes no engine field (R19, R20, R131, R134, R135, R139). -/
def Obligations.CommandFrames : Prop :=
  (∀ (c : List Byte) (s t : State), exec (.update c) s = .next t →
    t.engine.variant = s.engine.variant ∧ t.engine.path = s.engine.path ∧
    t.engine.digest = s.engine.digest ∧ t.dispatcher = s.dispatcher ∧
    (s.engine.variant ≠ some .h64 → t.engine.l2 = s.engine.l2 ∧ t.engine.l3 = s.engine.l3)) ∧
  (∀ s t : State, exec .final s = .next t →
    t.engine = { s.engine with phase := t.engine.phase, digest := t.engine.digest } ∧
    (∀ a, Memory.read t.engine.buf a = Memory.read s.engine.buf a) ∧ t.dispatcher = s.dispatcher) ∧
  (∀ (seed : Word) (s t : State), exec (.reset seed) s = .next t →
    t.engine.variant = s.engine.variant ∧ t.engine.path = s.engine.path ∧ t.dispatcher = s.dispatcher) ∧
  (∀ s t : State, exec .caps s = .next t → t.engine = s.engine)

/-- A held digest never changes while the engine stays finalised, but by a `HASH` command (R20). -/
def Obligations.HeldDigestIsImmutable : Prop :=
  ∀ (i : Instr) (s t : State), exec i s = .next t →
    s.engine.phase = .final → t.engine.phase = .final → (∀ v seed b, i ≠ hashOf v seed b) →
    t.engine.digest = s.engine.digest

/-! ### Invariants and properties of runs -/

/-- The state after hardware reset is valid, and holds what R25 says: phase `UNCONF`, `caps_valid` 0, every
other field of the engine and the dispatcher without a value. -/
def Obligations.ResetStateIsValid : Prop :=
  State.reset.valid ∧ State.reset.snapshot ∧
  State.reset.engine.phase = .unconf ∧ State.reset.dispatcher.capsValid = false ∧
  State.reset.engine.variant = none ∧ State.reset.engine.l0 = none ∧ State.reset.engine.l1 = none ∧
  State.reset.engine.l2 = none ∧ State.reset.engine.l3 = none ∧
  (∀ a, Memory.read State.reset.engine.buf a = none) ∧ State.reset.engine.len = none ∧
  State.reset.engine.path = none ∧ State.reset.engine.digest = none ∧ State.reset.dispatcher.caps = none

/-- Every step keeps the table of R29: fields hold values exactly where it says, and the buffer holds exactly
the `len mod 32` bytes of R18. -/
def Obligations.StepKeepsValidity : Prop :=
  ∀ s t : State, s.valid → step s = .next t → t.valid

/-- No rule reads a field that holds no value (R26): from a valid state no step faults. -/
def Obligations.ValidStatesNeverFault : Prop :=
  ∀ (s : State) (f : Fault), s.valid → step s ≠ .fault f

/-- The held digest stays the digest of the engine held beside it: every step from a valid state keeps that
finalisation of the state as it stands gives the held digest (R20). -/
def Obligations.StepKeepsDigestSnapshot : Prop :=
  ∀ s t : State, s.valid → s.snapshot → step s = .next t → t.snapshot

/-- Parity (R113, R140): two valid states that differ in path, capabilities and probe answer alone give the same
response to every command but `CAPS`, and go on to states that again differ in nothing else. -/
def Obligations.NoResponseDependsOnPath : Prop :=
  ∀ (i : Instr) (s t : State), s.valid → t.valid → sameButPath s t → i ≠ .caps →
    ∃ s' t', exec i s = .next s' ∧ exec i t = .next t' ∧ s'.valid ∧ t'.valid ∧ sameButPath s' t'

/-! ### Several engines

The device of `Machine/Device.lean` is the model's form of R156 (log entry 14). -/

/-- A device at hardware reset is valid, whatever the number of its engines (R156, R25). -/
def Obligations.DeviceResetIsValid : Prop :=
  ∀ n : Nat, (deviceReset n).valid ∧ (deviceReset n).ports.length = n ∧
    ∀ p ∈ (deviceReset n).ports, p.engine.phase = .unconf

/-- A step of any engine keeps every engine of the device valid with the shared dispatcher (R125, R156). -/
def Obligations.DeviceStepKeepsValidity : Prop :=
  ∀ (d d1 : Device) (k : Nat), d.valid → stepPort k d = .next d1 → d1.valid

/-- Commands on different engines of a device commute (R156, R173): from a valid device, whichever of two
engines goes first, both orders end in the same device. -/
def Obligations.CommandsOnDifferentEnginesCommute : Prop :=
  ∀ (d d1 : Device) (k l : Nat), k ≠ l → d.valid → stepTwo k l d = .next d1 → stepTwo l k d = .next d1

/-- A command on one engine leaves every other engine's state, pending commands and responses alone (R125,
R156). -/
def Obligations.EnginesDoNotDisturbEachOther : Prop :=
  ∀ (d d1 : Device) (k l : Nat), k ≠ l → stepPort k d = .next d1 → d1.ports[l]? = d.ports[l]?
end

