-- ==== Sys2Proof/Laws/Memory.lean ====
section
/-! SUPPORT. The residual buffer: a read after a write, the canonical form that every operation keeps, and
buffers that hold the bytes of a string from index 0 on. -/

namespace Sys2Proof.Machine

/-- A read after a write: the byte written at its index, every other index as before (R43). -/
theorem read_write (m : Memory) (a x : Nat) (b : Byte) :
    Memory.read (Memory.write m a b) x = if x = a then some b else Memory.read m x := by
  induction m with
  | nil => simp [Memory.write, Memory.read, eq_comm]
  | cons c m ih =>
    obtain ⟨k, v⟩ := c
    simp only [Memory.write]
    split
    · simp only [Memory.read]; grind
    · split
      · simp only [Memory.read]; grind
      · simp only [Memory.read, ih]; grind

/-- The indices of a buffer after a write are those before and the one written. -/
theorem mem_write_fst (m : Memory) (a : Nat) (b : Byte) (i : Nat) :
    i ∈ (Memory.write m a b).map Prod.fst ↔ i = a ∨ i ∈ m.map Prod.fst := by
  induction m with
  | nil => simp [Memory.write]
  | cons c m ih =>
    obtain ⟨k, v⟩ := c
    simp only [Memory.write]
    split
    · simp
    · split
      · simp_all
      · simp only [List.map_cons, List.mem_cons, ih]; tauto

/-- A write at an index of the buffer keeps the canonical form (R30). -/
theorem write_wf {m : Memory} {a : Nat} (b : Byte) (ha : a < bufBytes) (h : m.wf) :
    (Memory.write m a b).wf := by
  refine ⟨?_, fun i hi => ?_⟩
  · have hs := h.1
    clear h ha
    induction m with
    | nil => simp [Memory.write]
    | cons c m ih =>
      obtain ⟨k, v⟩ := c
      simp only [List.map_cons, List.pairwise_cons] at hs
      simp only [Memory.write]
      split
      · rename_i hk
        simp only [List.map_cons, List.pairwise_cons, List.mem_cons]
        refine ⟨?_, hs⟩
        rintro x (rfl | hx)
        · exact hk
        · exact hk.trans (hs.1 x hx)
      · split
        · rename_i hk
          subst hk
          simpa using hs
        · simp only [List.map_cons, List.pairwise_cons]
          refine ⟨fun x hx => ?_, ih hs.2⟩
          rcases (mem_write_fst m a b x).1 hx with rfl | hx
          · omega
          · exact hs.1 x hx
  · rcases (mem_write_fst m a b i).1 hi with rfl | hi
    · exact ha
    · exact h.2 i hi

/-- `memWrite` answers exactly at the indices 0..30, with the written buffer. -/
theorem memWrite_ok_iff {m m' : Memory} {a : Nat} {b : Byte} :
    memWrite m a b = .ok m' ↔ a < bufBytes ∧ m' = Memory.write m a b := by
  unfold memWrite
  split <;> simp_all [eq_comm]

/-- `memWrite` keeps the canonical form. -/
theorem memWrite_wf {m m' : Memory} {a : Nat} {b : Byte} (h : m.wf) (hw : memWrite m a b = .ok m') : m'.wf := by
  obtain ⟨ha, rfl⟩ := memWrite_ok_iff.1 hw
  exact write_wf b ha h

/-- The empty buffer has the canonical form: that of reset, of `INIT`, `RESET` and `HASH`, and of a block just
mixed. -/
theorem nil_wf : Memory.wf [] := ⟨by simp, by simp⟩

/-- `memByte` answers exactly the byte held at an index 0..30. -/
theorem memByte_ok_iff {m : Memory} {a : Nat} {b : Byte} :
    memByte m a = .ok b ↔ a < bufBytes ∧ Memory.read m a = some b := by
  unfold memByte need
  split
  · cases h : Memory.read m a <;> simp_all
  · simp_all

/-- The indices of `indexed bs` are `0 .. |bs| - 1`. -/
@[simp] theorem indexed_map_fst (bs : List Byte) : (indexed bs).map Prod.fst = List.range bs.length := by
  apply List.ext_getElem <;> simp [indexed]

@[simp] theorem indexed_nil : indexed [] = [] := rfl

theorem indexed_concat (bs : List Byte) (b : Byte) : indexed (bs ++ [b]) = indexed bs ++ [(bs.length, b)] := by
  simp [indexed, List.mapIdx_append]

/-- A buffer whose indices are `0 .. n - 1` holds the bytes of a string of length `n` from index 0 on. -/
theorem eq_indexed_of_map_fst {m : Memory} {n : Nat} (h : m.map Prod.fst = List.range n) :
    ∃ bs : List Byte, bs.length = n ∧ m = indexed bs := by
  have hlen : m.length = n := by simpa using congrArg List.length h
  refine ⟨m.map Prod.snd, by simpa using hlen, ?_⟩
  apply List.ext_getElem
  · simp [indexed]
  · intro i h1 h2
    have hi : (m.map Prod.fst)[i]'(by simpa using h1) = i := by simp [h]
    simp only [List.getElem_map] at hi
    simp only [indexed, List.getElem_mapIdx, List.getElem_map]
    exact Prod.ext hi rfl

theorem read_append_of_lt {m m' : Memory} {a : Nat} (h : ∀ i ∈ m'.map Prod.fst, i ≠ a) :
    Memory.read (m ++ m') a = Memory.read m a := by
  induction m with
  | nil =>
    induction m' with
    | nil => rfl
    | cons c m' ih =>
      obtain ⟨k, v⟩ := c
      have hk : k ≠ a := h k (by simp)
      have := ih fun i hi => h i (by simp_all)
      simp_all [Memory.read]
  | cons c m ih => simp only [List.cons_append, Memory.read, ih]

/-- What the buffer of a string holds at each index. -/
theorem read_indexed (bs : List Byte) (a : Nat) : Memory.read (indexed bs) a = bs[a]? := by
  induction bs using List.reverseRecOn with
  | nil => simp [Memory.read]
  | append_singleton bs b ih =>
    rw [indexed_concat]
    by_cases ha : a = bs.length
    · subst ha
      have : ∀ m : Memory, (∀ i ∈ m.map Prod.fst, i ≠ bs.length) →
          Memory.read (m ++ [(bs.length, b)]) bs.length = some b := by
        intro m hm
        induction m with
        | nil => simp [Memory.read]
        | cons c m ihm =>
          obtain ⟨k, v⟩ := c
          have hk : k ≠ bs.length := hm k (by simp)
          simp only [List.cons_append, Memory.read, if_neg hk]
          exact ihm fun i hi => hm i (by simp_all)
      rw [this _ (by intro i hi; rw [indexed_map_fst, List.mem_range] at hi; omega)]
      simp
    · rw [read_append_of_lt (by simpa using fun h => ha h.symm), ih]
      by_cases hlt : a < bs.length
      · rw [List.getElem?_append_left hlt]
      · rw [List.getElem?_eq_none (by omega), List.getElem?_eq_none (by simp; omega)]

/-- A store at the fill position appends the byte. -/
theorem write_indexed (bs : List Byte) (b : Byte) :
    Memory.write (indexed bs) bs.length b = indexed (bs ++ [b]) := by
  rw [indexed_concat]
  have : ∀ (m : Memory) (n : Nat), (∀ i ∈ m.map Prod.fst, i < n) → Memory.write m n b = m ++ [(n, b)] := by
    intro m n hm
    induction m with
    | nil => rfl
    | cons c m ih =>
      obtain ⟨k, v⟩ := c
      have hk : k < n := hm k (by simp)
      simp only [Memory.write, List.cons_append]
      rw [if_neg (by omega), if_neg (by omega), ih fun i hi => hm i (by simp_all)]
  exact this _ _ (by simp)

/-- The bytes read from the buffer of a string are the string's, as long as they lie inside it and inside the
buffer. -/
theorem memBytes_indexed (bs : List Byte) (a n : Nat) (h : a + n ≤ bs.length) (hb : a + n ≤ bufBytes) :
    memBytes (indexed bs) a n = .ok ((bs.drop a).take n) := by
  induction n generalizing a with
  | zero => simp [memBytes]
  | succ n ih =>
    have hlt : a < bs.length := by omega
    have hbyte : memByte (indexed bs) a = .ok bs[a] :=
      memByte_ok_iff.2 ⟨by omega, by rw [read_indexed, List.getElem?_eq_getElem hlt]⟩
    simp only [memBytes, hbyte, ih (a + 1) (by omega) (by omega), bind, Except.bind]
    rw [List.drop_eq_getElem_cons hlt, List.take_succ_cons]

/-- `MemRead` on the residual bytes is the little-endian load of R67. -/
theorem memRead_indexed (bs : List Byte) (a n : Nat) (h : a + n ≤ bs.length) (hb : a + n ≤ bufBytes) :
    memRead (indexed bs) a n = .ok (loadLE bs a n) := by
  simp only [memRead, memBytes_indexed bs a n h hb, bind, Except.bind]
  simp [loadLE, List.take_take]

end Sys2Proof.Machine
end

