-- ==== Sys2Proof/Laws/State.lean ====
section
/-! SUPPORT. One lemma per field per update of the state: what the small operations leave in each field. -/

namespace Sys2Proof.Machine

variable (s : State) (r : Response) (e : Engine)

@[simp] theorem respond_engine : (respond r s).engine = s.engine := rfl
@[simp] theorem respond_dispatcher : (respond r s).dispatcher = s.dispatcher := rfl
@[simp] theorem respond_params : (respond r s).params = s.params := rfl
@[simp] theorem respond_probe : (respond r s).probe = s.probe := rfl
@[simp] theorem respond_pending : (respond r s).pending = s.pending := rfl
@[simp] theorem respond_responses : (respond r s).responses = s.responses ++ [r] := rfl

@[simp] theorem misuse_engine (st : Status) (v : Option RespValue) : (misuse st v s).engine = s.engine := rfl
@[simp] theorem misuse_dispatcher (st : Status) (v : Option RespValue) :
    (misuse st v s).dispatcher = s.dispatcher := rfl
@[simp] theorem misuse_params (st : Status) (v : Option RespValue) : (misuse st v s).params = s.params := rfl
@[simp] theorem misuse_probe (st : Status) (v : Option RespValue) : (misuse st v s).probe = s.probe := rfl
@[simp] theorem misuse_pending (st : Status) (v : Option RespValue) : (misuse st v s).pending = s.pending := rfl
@[simp] theorem misuse_responses (st : Status) (v : Option RespValue) :
    (misuse st v s).responses = s.responses ++ [{ status := st, value := v }] := rfl

@[simp] theorem putLanes4_l0 (l : Lanes4) : (putLanes4 e l).l0 = some l.v0 := rfl
@[simp] theorem putLanes4_l1 (l : Lanes4) : (putLanes4 e l).l1 = some l.v1 := rfl
@[simp] theorem putLanes4_l2 (l : Lanes4) : (putLanes4 e l).l2 = some l.v2 := rfl
@[simp] theorem putLanes4_l3 (l : Lanes4) : (putLanes4 e l).l3 = some l.v3 := rfl
@[simp] theorem putLanes4_variant (l : Lanes4) : (putLanes4 e l).variant = e.variant := rfl
@[simp] theorem putLanes4_phase (l : Lanes4) : (putLanes4 e l).phase = e.phase := rfl
@[simp] theorem putLanes4_buf (l : Lanes4) : (putLanes4 e l).buf = e.buf := rfl
@[simp] theorem putLanes4_len (l : Lanes4) : (putLanes4 e l).len = e.len := rfl
@[simp] theorem putLanes4_path (l : Lanes4) : (putLanes4 e l).path = e.path := rfl
@[simp] theorem putLanes4_digest (l : Lanes4) : (putLanes4 e l).digest = e.digest := rfl

@[simp] theorem putLanes2_l0 (l : Lanes2) : (putLanes2 e l).l0 = some l.lo := rfl
@[simp] theorem putLanes2_l1 (l : Lanes2) : (putLanes2 e l).l1 = some l.hi := rfl
@[simp] theorem putLanes2_l2 (l : Lanes2) : (putLanes2 e l).l2 = e.l2 := rfl
@[simp] theorem putLanes2_l3 (l : Lanes2) : (putLanes2 e l).l3 = e.l3 := rfl
@[simp] theorem putLanes2_variant (l : Lanes2) : (putLanes2 e l).variant = e.variant := rfl
@[simp] theorem putLanes2_phase (l : Lanes2) : (putLanes2 e l).phase = e.phase := rfl
@[simp] theorem putLanes2_buf (l : Lanes2) : (putLanes2 e l).buf = e.buf := rfl
@[simp] theorem putLanes2_len (l : Lanes2) : (putLanes2 e l).len = e.len := rfl
@[simp] theorem putLanes2_path (l : Lanes2) : (putLanes2 e l).path = e.path := rfl
@[simp] theorem putLanes2_digest (l : Lanes2) : (putLanes2 e l).digest = e.digest := rfl

@[simp] theorem portState_statePort (d : Device) (t : State)
    (hd : t.dispatcher = d.dispatcher) (hp : t.params = d.params) (hq : t.probe = d.probe) :
    portState d (statePort t) = t := by
  cases t; cases hd; cases hp; cases hq; rfl

end Sys2Proof.Machine
end

