-- ==== Sys2Proof/Laws/Ops.lean ====
section
/-! SUPPORT. For each shared operation of `Machine/Ops.lean`, once, all it can do: later proofs cite these and do
not unfold the operation. -/

namespace Sys2Proof.Machine

/-- A sequence of two fallible operations answers exactly when both do. -/
theorem bind_ok_iff {ε α β : Type} {x : Except ε α} {f : α → Except ε β} {b : β} :
    (x >>= f) = Except.ok b ↔ ∃ a, x = .ok a ∧ f a = .ok b := by
  cases x <;> simp [bind, Except.bind]

/-- What a successful answer is, read from the answer's side. -/
theorem ok_eq_ok_iff {ε α : Type} {a b : α} : (Except.ok a : Except ε α) = .ok b ↔ b = a := by
  rw [Except.ok.injEq, eq_comm]

/-- What a next state is, read from the state's side. -/
theorem next_eq_next_iff {σ φ ρ : Type} {a b : σ} :
    (Host.Outcome.next a : Host.Outcome σ φ ρ) = .next b ↔ b = a := by
  rw [Host.Outcome.next.injEq, eq_comm]

/-- A read answers exactly the value held. -/
@[simp] theorem need_ok_iff {α : Type} {f : Field} {o : Option α} {v : α} :
    need f o = .ok v ↔ o = some v := by
  cases o <;> simp [need]

@[simp] theorem need_some {α : Type} (f : Field) (v : α) : need f (some v) = .ok v := rfl

theorem readLanes4_ok_iff {e : Engine} {l : Lanes4} :
    readLanes4 e = .ok l ↔
      e.l0 = some l.v0 ∧ e.l1 = some l.v1 ∧ e.l2 = some l.v2 ∧ e.l3 = some l.v3 := by
  obtain ⟨a, b, c, d⟩ := l
  simp only [readLanes4, bind_ok_iff, need_ok_iff, Except.ok.injEq, Lanes4.mk.injEq]
  grind

theorem readLanes2_ok_iff {e : Engine} {l : Lanes2} :
    readLanes2 e = .ok l ↔ e.l0 = some l.lo ∧ e.l1 = some l.hi := by
  obtain ⟨a, b⟩ := l
  simp only [readLanes2, bind_ok_iff, need_ok_iff, Except.ok.injEq, Lanes2.mk.injEq]
  grind

/-! ### Seed step -/

section
variable (p : Params) (v : Variant) (seed : Word) (e : Engine)

@[simp] theorem seedStep_variant : (seedStep p v seed e).variant = e.variant := by cases v <;> rfl
@[simp] theorem seedStep_phase : (seedStep p v seed e).phase = e.phase := by cases v <;> rfl
@[simp] theorem seedStep_buf : (seedStep p v seed e).buf = e.buf := by cases v <;> rfl
@[simp] theorem seedStep_path : (seedStep p v seed e).path = e.path := by cases v <;> rfl
@[simp] theorem seedStep_digest : (seedStep p v seed e).digest = e.digest := by cases v <;> rfl
@[simp] theorem seedStep_len : (seedStep p v seed e).len = some 0 := by cases v <;> rfl
@[simp] theorem seedStep_l0_isSome : (seedStep p v seed e).l0.isSome = true := by cases v <;> rfl
@[simp] theorem seedStep_l1_isSome : (seedStep p v seed e).l1.isSome = true := by cases v <;> rfl

/-- The lanes after a seed step do not depend on the engine before it. -/
theorem seedStep_lanes_eq (e' : Engine) :
    (seedStep p v seed e).l0 = (seedStep p v seed e').l0 ∧ (seedStep p v seed e).l1 = (seedStep p v seed e').l1 ∧
    (seedStep p v seed e).l2 = (seedStep p v seed e').l2 ∧ (seedStep p v seed e).l3 = (seedStep p v seed e').l3 := by
  cases v <;> exact ⟨rfl, rfl, rfl, rfl⟩

/-- `L[2]` and `L[3]` hold values after the seed step of `H64` alone (R15). -/
theorem seedStep_upper_lanes :
    (v = .h64 → (seedStep p v seed e).l2.isSome = true ∧ (seedStep p v seed e).l3.isSome = true) ∧
    (v ≠ .h64 → (seedStep p v seed e).l2 = none ∧ (seedStep p v seed e).l3 = none) := by
  cases v <;> simp [seedStep]

end

/-! ### Block step and absorbing -/

/-- The block step writes the lanes of the variant, from their old values and the block. -/
theorem blockStep_ok_iff {p : Params} {v : Variant} {b : List Byte} {e e' : Engine} :
    blockStep p v b e = .ok e' ↔
      (v = .h64 ∧ ∃ l, readLanes4 e = .ok l ∧ e' = putLanes4 e (block64 p l b)) ∨
      (v = .h128 ∧ ∃ l, readLanes2 e = .ok l ∧ e' = putLanes2 e (block128 p l b)) ∨
      (v = .h128c ∧ ∃ l, readLanes2 e = .ok l ∧ e' = putLanes2 e (block128c p l b)) := by
  cases v <;> simp only [blockStep, bind_ok_iff, ok_eq_ok_iff] <;> simp

/-- The block step keeps every field but the lanes. -/
theorem blockStep_frame {p : Params} {v : Variant} {b : List Byte} {e e' : Engine}
    (h : blockStep p v b e = .ok e') :
    e'.variant = e.variant ∧ e'.phase = e.phase ∧ e'.buf = e.buf ∧ e'.len = e.len ∧ e'.path = e.path ∧
      e'.digest = e.digest ∧ (v ≠ .h64 → e'.l2 = e.l2 ∧ e'.l3 = e.l3) := by
  rcases blockStep_ok_iff.1 h with ⟨rfl, l, -, rfl⟩ | ⟨rfl, l, -, rfl⟩ | ⟨rfl, l, -, rfl⟩ <;> simp

/-- One byte absorbed (R132): at position 31 the block step on the buffered bytes and the byte, the buffer then
empty; elsewhere a store at the fill position. -/
theorem absorb_ok_iff {p : Params} {b : Byte} {e e' : Engine} :
    absorb p b e = .ok e' ↔
      ∃ v n, e.variant = some v ∧ e.len = some n ∧
        ((fill n = bufBytes ∧ ∃ bytes e1, memBytes e.buf 0 bufBytes = .ok bytes ∧
            blockStep p v (bytes ++ [b]) e = .ok e1 ∧
            e' = { e1 with buf := [], len := some (add64 n 1) }) ∨
          (fill n ≠ bufBytes ∧ ∃ m, memWrite e.buf (fill n) b = .ok m ∧
            e' = { e with buf := m, len := some (add64 n 1) })) := by
  simp only [absorb, bind_ok_iff, need_ok_iff]
  constructor
  · rintro ⟨v, hv, n, hn, h⟩
    refine ⟨v, n, hv, hn, ?_⟩
    split at h
    · rename_i hf
      obtain ⟨bytes, hb, h'⟩ := bind_ok_iff.1 h
      obtain ⟨e1, h1, h2⟩ := bind_ok_iff.1 h'
      exact .inl ⟨hf, bytes, e1, hb, h1, ok_eq_ok_iff.1 h2⟩
    · rename_i hf
      obtain ⟨m, hm, h2⟩ := bind_ok_iff.1 h
      exact .inr ⟨hf, m, hm, ok_eq_ok_iff.1 h2⟩
  · rintro ⟨v, n, hv, hn, ⟨hf, bytes, e1, hb, h1, rfl⟩ | ⟨hf, m, hm, rfl⟩⟩
    · refine ⟨v, hv, n, hn, ?_⟩
      rw [if_pos hf]
      exact bind_ok_iff.2 ⟨bytes, hb, bind_ok_iff.2 ⟨e1, h1, rfl⟩⟩
    · refine ⟨v, hv, n, hn, ?_⟩
      rw [if_neg hf]
      exact bind_ok_iff.2 ⟨m, hm, rfl⟩

/-- Absorbing keeps variant, phase, path and digest, and `L[2]`, `L[3]` outside `H64`. -/
theorem absorb_frame {p : Params} {b : Byte} {e e' : Engine} (h : absorb p b e = .ok e') :
    e'.variant = e.variant ∧ e'.phase = e.phase ∧ e'.path = e.path ∧ e'.digest = e.digest ∧
      (e.variant ≠ some .h64 → e'.l2 = e.l2 ∧ e'.l3 = e.l3) := by
  obtain ⟨v, n, hv, -, ⟨-, bytes, e1, -, h1, rfl⟩ | ⟨-, m, -, rfl⟩⟩ := absorb_ok_iff.1 h
  · have := blockStep_frame h1
    simp_all
  · simp

@[simp] theorem absorbAll_nil (p : Params) (e : Engine) : absorbAll p [] e = .ok e := rfl

theorem absorbAll_cons_ok_iff {p : Params} {b : Byte} {bs : List Byte} {e e' : Engine} :
    absorbAll p (b :: bs) e = .ok e' ↔ ∃ e1, absorb p b e = .ok e1 ∧ absorbAll p bs e1 = .ok e' := by
  simp [absorbAll, bind_ok_iff]

/-- Absorbing a concatenation is absorbing one string after the other. -/
theorem absorbAll_append_ok_iff {p : Params} {bs cs : List Byte} {e e' : Engine} :
    absorbAll p (bs ++ cs) e = .ok e' ↔ ∃ e1, absorbAll p bs e = .ok e1 ∧ absorbAll p cs e1 = .ok e' := by
  induction bs generalizing e with
  | nil => simp
  | cons b bs ih => simp only [List.cons_append, absorbAll_cons_ok_iff, ih]; grind

/-- Absorbing any string keeps variant, phase, path and digest, and `L[2]`, `L[3]` outside `H64`. -/
theorem absorbAll_frame {p : Params} {bs : List Byte} {e e' : Engine} (h : absorbAll p bs e = .ok e') :
    e'.variant = e.variant ∧ e'.phase = e.phase ∧ e'.path = e.path ∧ e'.digest = e.digest ∧
      (e.variant ≠ some .h64 → e'.l2 = e.l2 ∧ e'.l3 = e.l3) := by
  induction bs generalizing e with
  | nil => cases h; simp
  | cons b bs ih =>
    obtain ⟨e1, h1, h2⟩ := absorbAll_cons_ok_iff.1 h
    have f1 := absorb_frame h1
    have f2 := ih h2
    grind

/-! ### Finalisation -/

theorem residual_ok_iff {e : Engine} {bs : List Byte} :
    residual e = .ok bs ↔ ∃ n, e.len = some n ∧ memBytes e.buf 0 (fill n) = .ok bs := by
  simp [residual, bind_ok_iff]

/-- The digest by variant, from the lanes and the residual bytes; `path` is read in `H128C` alone. -/
theorem finalDigest_ok_iff {p : Params} {e : Engine} {d : Word128} :
    finalDigest p e = .ok d ↔
      ∃ res, residual e = .ok res ∧
        ((e.variant = some .h64 ∧ ∃ l, readLanes4 e = .ok l ∧ d = (final64 p l res).setWidth 128) ∨
          (e.variant = some .h128 ∧ ∃ l, readLanes2 e = .ok l ∧ d = final128 p l res) ∨
          (e.variant = some .h128c ∧ ∃ path l, e.path = some path ∧ readLanes2 e = .ok l ∧
            d = final128c p path.crc l res)) := by
  simp only [finalDigest, bind_ok_iff, need_ok_iff]
  constructor
  · rintro ⟨v, hv, res, hr, h⟩
    refine ⟨res, hr, ?_⟩
    cases v <;> simp only [bind_ok_iff, need_ok_iff, Except.ok.injEq] at h <;> grind
  · rintro ⟨res, hr, ⟨hv, l, hl, rfl⟩ | ⟨hv, l, hl, rfl⟩ | ⟨hv, path, l, hp, hl, rfl⟩⟩
    · exact ⟨_, hv, res, hr, by simp [bind_ok_iff, hl]⟩
    · exact ⟨_, hv, res, hr, by simp [bind_ok_iff, hl]⟩
    · exact ⟨_, hv, res, hr, by simp [bind_ok_iff, hl, hp]⟩

/-- The multiplexer returns `crc32_u64` on both paths (R108). -/
@[simp] theorem crcMux_eq (p : Params) (pathCrc : Bool) (c : Word32) (d : Word) :
    crcMux p pathCrc c d = crc32U64 p c d := by
  cases pathCrc <;> rfl

theorem crcstep_path (p : Params) (b : Bool) (lane word cB : Word) (w : Nat) :
    crcstep p b lane word cB w = crcstep p false lane word cB w := by
  simp [crcstep]

/-- The digest of `H128C` is the same on both paths (R113). -/
theorem final128c_path (p : Params) (b : Bool) (l : Lanes2) (res : List Byte) :
    final128c p b l res = final128c p false l res := by
  have : tail128cLoad p b res = tail128cLoad p false res := by
    funext l d
    simp only [tail128cLoad, crcstep_path p b]
  simp only [final128c, tail128c, this]

/-! ### The dispatcher -/

/-- After detection the capabilities are those held, or those the probe answers. -/
theorem detect_eq (q : Probe) (d : Dispatcher) :
    (d.capsValid = true → detect q d = d) ∧
    (d.capsValid = false → detect q d = { capsValid := true, caps := some (probedCaps q) }) := by
  unfold detect
  split <;> simp_all

/-- A valid dispatcher holds the probe's capabilities after detection. -/
theorem detect_of_valid {q : Probe} {d : Dispatcher} (h : d.valid q) :
    detect q d = { capsValid := true, caps := some (probedCaps q) } := by
  obtain ⟨v, c⟩ := d
  have hc : c = if v then some (probedCaps q) else none := h
  subst hc
  cases v <;> rfl

/-- `capsAre` names the result of detection. -/
theorem detect_of_capsAre {s : State} {c : Caps} (h : s.capsAre c) :
    detect s.probe s.dispatcher = { capsValid := true, caps := some c } := by
  obtain ⟨h1, h2⟩ := h
  unfold detect probedCaps
  cases hv : s.dispatcher.capsValid
  · simp [← h2 hv]
  · rcases s with ⟨e, ⟨v, c'⟩, p, q, pend, resp⟩
    simp_all

theorem capsAre_of_valid {s : State} (h : s.valid) : s.capsAre (probedCaps s.probe) := by
  have hd : s.dispatcher.caps = if s.dispatcher.capsValid then some (probedCaps s.probe) else none := h.2.1
  exact ⟨fun hv => by rw [hd, if_pos hv], fun _ => rfl⟩

/-! ### Construction, reseeding, feeding, finishing -/

theorem construct_ok_iff {v : Variant} {seed : Word} {s t : State} :
    construct v seed s = .ok t ↔
      ∃ c, (detect s.probe s.dispatcher).caps = some c ∧
        t = { s with
          dispatcher := detect s.probe s.dispatcher
          engine := { seedStep s.params v seed s.engine with
            variant := some v, path := some { simd := c.simd, crc := c.crc },
            buf := [], digest := none, phase := .empty } } := by
  simp only [construct, bind_ok_iff, need_ok_iff, ok_eq_ok_iff]

theorem reseed_ok_iff {seed : Word} {s t : State} :
    reseed seed s = .ok t ↔
      ∃ v, s.engine.variant = some v ∧
        t = { s with engine := { seedStep s.params v seed s.engine with
          buf := [], digest := none, phase := .empty } } := by
  simp only [reseed, bind_ok_iff, need_ok_iff, ok_eq_ok_iff]

theorem feed_ok_iff {c : List Byte} {s t : State} :
    feed c s = .ok t ↔
      ∃ e, absorbAll s.params c s.engine = .ok e ∧ t = { s with engine := { e with phase := .accum } } := by
  simp only [feed, bind_ok_iff, ok_eq_ok_iff]

theorem finish_ok_iff {s t : State} :
    finish s = .ok t ↔
      ∃ d, finalDigest s.params s.engine = .ok d ∧
        t = { s with engine := { s.engine with digest := some d, phase := .final } } := by
  simp only [finish, bind_ok_iff, ok_eq_ok_iff]

theorem heldDigest_ok_iff {s : State} {r : RespValue} :
    heldDigest s = .ok r ↔
      ∃ v d, s.engine.variant = some v ∧ s.engine.digest = some d ∧ r = .digest (digestValue v d) := by
  simp only [heldDigest, bind_ok_iff, need_ok_iff, ok_eq_ok_iff, exists_and_left]

theorem oneShot_ok_iff {v : Variant} {seed : Word} {c : List Byte} {s t : State} :
    oneShot v seed c s = .ok t ↔
      ∃ s1 s2, construct v seed s = .ok s1 ∧ feed c s1 = .ok s2 ∧ finish s2 = .ok t := by
  simp only [oneShot, bind_ok_iff]
  grind

/-! ### Responses -/

theorem answer_next_iff {x : Except Fault (State × Option RespValue)} {t : State} :
    answer x = .next t ↔ ∃ s v, x = .ok (s, v) ∧ t = respond { status := .ok, value := v } s := by
  rcases x with f | ⟨s, v⟩ <;> simp [answer, eq_comm]

theorem answerPlain_next_iff {x : Except Fault State} {t : State} :
    answerPlain x = .next t ↔ ∃ s, x = .ok s ∧ t = respond { status := .ok, value := none } s := by
  rcases x with f | s <;> simp [answerPlain, answer, Except.map, eq_comm]

theorem answerDigest_next_iff {x : Except Fault State} {t : State} :
    answerDigest x = .next t ↔
      ∃ s r, x = .ok s ∧ heldDigest s = .ok r ∧ t = respond { status := .ok, value := some r } s := by
  simp only [answerDigest, answer_next_iff, bind_ok_iff]
  grind

/-- No answer is a refusal of the model. -/
theorem answer_ne_refused (x : Except Fault (State × Option RespValue)) (r : Refusal) :
    answer x ≠ .refused r := by
  rcases x with f | ⟨s, v⟩ <;> simp [answer]

/-! ### The meanings -/

/-- `UPDATE` completes as `feed` in `EMPTY` and `ACCUM`, and is refused elsewhere. -/
theorem execUpdate_next_iff {c : List Byte} {s t : State} :
    execUpdate c s = .next t ↔
      (updateStatus s.engine.phase = .ok ∧ ∃ u, feed c s = .ok u ∧ t = respond { status := .ok, value := none } u) ∨
      (updateStatus s.engine.phase ≠ .ok ∧ t = misuse (updateStatus s.engine.phase) none s) := by
  unfold execUpdate
  split
  · rename_i h
    simp [h, answerPlain_next_iff]
  · rename_i h
    rw [next_eq_next_iff]
    exact ⟨fun ht => .inr ⟨h, ht⟩, fun ht => ht.elim (fun hk => absurd hk.1 h) And.right⟩

/-- `RESET` completes as `reseed` outside `UNCONF`, and is refused there. -/
theorem execReset_next_iff {seed : Word} {s t : State} :
    execReset seed s = .next t ↔
      (s.engine.phase ≠ .unconf ∧ ∃ u, reseed seed s = .ok u ∧ t = respond { status := .ok, value := none } u) ∨
      (s.engine.phase = .unconf ∧ t = misuse .errUnconfigured none s) := by
  unfold execReset
  cases h : s.engine.phase <;> simp only [resetStatus, answerPlain_next_iff, next_eq_next_iff] <;> simp

/-- `FINAL` completes as `finish` in `EMPTY` and `ACCUM`, shows the held digest in `FINAL`, and is refused in
`UNCONF`. -/
theorem execFinal_next_iff {s t : State} :
    execFinal s = .next t ↔
      ((s.engine.phase = .empty ∨ s.engine.phase = .accum) ∧
        ∃ u r, finish s = .ok u ∧ heldDigest u = .ok r ∧ t = respond { status := .ok, value := some r } u) ∨
      (s.engine.phase = .final ∧ ∃ r, heldDigest s = .ok r ∧ t = misuse .errRefinalize (some r) s) ∨
      (s.engine.phase = .unconf ∧ t = misuse .errUnconfigured none s) := by
  unfold execFinal refinalize
  cases h : s.engine.phase <;> simp only [finalStatus, answerDigest_next_iff, next_eq_next_iff]
  all_goals try simp
  cases heldDigest s <;> simp only [next_eq_next_iff] <;> simp

/-- `CAPS` answers the capabilities after detection. -/
theorem execCaps_next_iff {s t : State} :
    execCaps s = .next t ↔
      ∃ c, (detect s.probe s.dispatcher).caps = some c ∧
        t = respond { status := .ok, value := some (.caps (capsBits c)) }
          { s with dispatcher := detect s.probe s.dispatcher } := by
  simp only [execCaps, answer_next_iff, bind_ok_iff, need_ok_iff, Except.ok.injEq, Prod.mk.injEq]
  grind

end Sys2Proof.Machine
end

