-- ==== Sys2Proof/Laws/PerInstr.lean ====
section
/-! SUPPORT. A family of lemmas with one member per command: the encoder writes 0 into the reserved field of
the command word (30_encoding.md R46). -/

/-- `CMD[7:6]` of the word the encoder writes for the command is 0. -/
def Sys2Proof.Laws.ReservedFieldZero.Statement (i : Sys2Proof.Instr) : Prop :=
  Sys2Proof.rsvField (Sys2Proof.encode i).cmd = 0

theorem Sys2Proof.Laws.ReservedFieldZero.initH64 (seed : Sys2Proof.Word) :
    Sys2Proof.Laws.ReservedFieldZero.Statement (.initH64 seed) := by
  show Sys2Proof.rsvField 0x01 = 0; decide

theorem Sys2Proof.Laws.ReservedFieldZero.initH128 (seed : Sys2Proof.Word) :
    Sys2Proof.Laws.ReservedFieldZero.Statement (.initH128 seed) := by
  show Sys2Proof.rsvField 0x11 = 0; decide

theorem Sys2Proof.Laws.ReservedFieldZero.initH128C (seed : Sys2Proof.Word) :
    Sys2Proof.Laws.ReservedFieldZero.Statement (.initH128C seed) := by
  show Sys2Proof.rsvField 0x21 = 0; decide

theorem Sys2Proof.Laws.ReservedFieldZero.update (payload : List Sys2Proof.Byte) :
    Sys2Proof.Laws.ReservedFieldZero.Statement (.update payload) := by
  show Sys2Proof.rsvField 0x02 = 0; decide

theorem Sys2Proof.Laws.ReservedFieldZero.final :
    Sys2Proof.Laws.ReservedFieldZero.Statement .final := by
  show Sys2Proof.rsvField 0x03 = 0; decide

theorem Sys2Proof.Laws.ReservedFieldZero.reset (seed : Sys2Proof.Word) :
    Sys2Proof.Laws.ReservedFieldZero.Statement (.reset seed) := by
  show Sys2Proof.rsvField 0x04 = 0; decide

theorem Sys2Proof.Laws.ReservedFieldZero.hashH64 (seed : Sys2Proof.Word) (payload : List Sys2Proof.Byte) :
    Sys2Proof.Laws.ReservedFieldZero.Statement (.hashH64 seed payload) := by
  show Sys2Proof.rsvField 0x05 = 0; decide

theorem Sys2Proof.Laws.ReservedFieldZero.hashH128 (seed : Sys2Proof.Word) (payload : List Sys2Proof.Byte) :
    Sys2Proof.Laws.ReservedFieldZero.Statement (.hashH128 seed payload) := by
  show Sys2Proof.rsvField 0x15 = 0; decide

theorem Sys2Proof.Laws.ReservedFieldZero.hashH128C (seed : Sys2Proof.Word) (payload : List Sys2Proof.Byte) :
    Sys2Proof.Laws.ReservedFieldZero.Statement (.hashH128C seed payload) := by
  show Sys2Proof.rsvField 0x25 = 0; decide

theorem Sys2Proof.Laws.ReservedFieldZero.caps :
    Sys2Proof.Laws.ReservedFieldZero.Statement .caps := by
  show Sys2Proof.rsvField 0x06 = 0; decide
end

