-- ==== Sys2Proof/Tests/Slice0.lean ====
section
/-! SUPPORT. The model's own tests. Expected values are those of spec/95_test_vectors.md (evaluated there from the
rules with `P = REF`) or are read off a rule; none is the model's own answer. The theorems under "Witnesses" show
states and operands that meet the hypotheses of a statement of `Certificates/Slice0/Obligations.lean`. -/

namespace Sys2Proof.Tests

-- The kernel evaluations below run one after another: side by side each takes a thread and its stack.
set_option Elab.async false

open Sys2Proof.Machine

/-! ### Helpers -/

/-- `T(n)` of 95_test_vectors.md. -/
def digits (n : Nat) : List Byte := (List.range n).map fun i => BitVec.ofNat 8 (0x30 + i % 10)

/-- `"abc"`. -/
def abc : List Byte := [0x61, 0x62, 0x63]

/-- An engine of variant `v` in phase `ph` that has buffered `bs`, lanes 1 to 4, path `(simd 0, crc 1)`. -/
def engineOf (v : Variant) (ph : Phase) (bs : List Byte) : Engine where
  variant := some v
  phase := ph
  l0 := some 1
  l1 := some 2
  l2 := if v = .h64 then some 3 else none
  l3 := if v = .h64 then some 4 else none
  buf := indexed bs
  len := some (BitVec.ofNat 64 bs.length)
  path := some { simd := false, crc := true }
  digest := none

/-- A state around an engine: detection has run, and found `(simd 0, crc 1)`. -/
def stateOf (e : Engine) : State :=
  { State.reset with
    engine := e
    dispatcher := { capsValid := true, caps := some { simd := false, crc := true } }
    probe := { ok := true, simd := false, crc := true } }

/-- The same state with the digest of its engine held, in phase `FINAL`. -/
def finalOf (e : Engine) : State :=
  match finalDigest refParams e with
  | .ok d => stateOf { e with phase := .final, digest := some d }
  | .error _ => State.reset

/-- A state of one pending command. -/
def offer (c : Command) (s : State) : State := { s with pending := [c] }

/-- The state after an outcome; the reset state where there is none. -/
def stateAfter (o : Host.Outcome State Fault Refusal) : State :=
  match o with
  | .next s => s
  | .fault _ => State.reset
  | .refused _ => State.reset

/-- `State.valid`, decided. -/
def validB (s : State) : Bool := decide s.valid

theorem valid_of {s : State} (h : validB s = true) : s.valid := of_decide_eq_true h

/-- Whether an outcome is a next state. -/
def completes (o : Host.Outcome State Fault Refusal) : Bool :=
  match o with
  | .next _ => true
  | .fault _ => false
  | .refused _ => false

theorem exists_next {o : Host.Outcome State Fault Refusal} (h : completes o = true) : ∃ t, o = .next t := by
  cases o <;> simp_all [completes]

/-- The last response given. -/
def lastResponse (o : Host.Outcome State Fault Refusal) : Option Response := (stateAfter o).responses.getLast?

/-- The four lanes of the engine after an outcome. -/
def lanesAfter (o : Host.Outcome State Fault Refusal) : List (Option Word) :=
  let e := (stateAfter o).engine
  [e.l0, e.l1, e.l2, e.l3]

/-! ### Decoding: each command's word written out from the fields of R46 and the table of R47 -/

theorem test_decode_initH64 : decode ⟨0b00000001, 5, []⟩ = .instr (.initH64 5) := by decide
theorem test_decode_initH128 : decode ⟨0b00010001, 5, []⟩ = .instr (.initH128 5) := by decide
theorem test_decode_initH128C : decode ⟨0b00100001, 5, []⟩ = .instr (.initH128C 5) := by decide
theorem test_decode_update : decode ⟨0b00000010, 5, [7]⟩ = .instr (.update [7]) := by decide
theorem test_decode_final : decode ⟨0b00000011, 5, [7]⟩ = .instr .final := by decide
theorem test_decode_reset : decode ⟨0b00000100, 5, [7]⟩ = .instr (.reset 5) := by decide
theorem test_decode_hashH64 : decode ⟨0b00000101, 5, [7]⟩ = .instr (.hashH64 5 [7]) := by decide
theorem test_decode_hashH128 : decode ⟨0b00010101, 5, [7]⟩ = .instr (.hashH128 5 [7]) := by decide
theorem test_decode_hashH128C : decode ⟨0b00100101, 5, [7]⟩ = .instr (.hashH128C 5 [7]) := by decide
theorem test_decode_caps : decode ⟨0b00000110, 5, [7]⟩ = .instr .caps := by decide

/-- Of all 256 words ten are legal, 0x31 and 0x35 are `BadVariant` and 244 are `BadCmd`
(95_test_vectors.md 2.2). -/
theorem test_decode_counts :
    ((List.range 256).filter fun w => decode ⟨BitVec.ofNat 8 w, 0, []⟩ == .badCmd).length = 244 ∧
    ((List.range 256).filter fun w => decode ⟨BitVec.ofNat 8 w, 0, []⟩ == .badVariant) = [0x31, 0x35] := by
  decide +kernel

/-- The single checks of 95_test_vectors.md 2.2. -/
theorem test_decode_reserved :
    decode ⟨0x31, 0, []⟩ = .badVariant ∧ decode ⟨0x35, 0, []⟩ = .badVariant ∧
    decode ⟨0x32, 0, []⟩ = .badCmd ∧ decode ⟨0x41, 0, []⟩ = .badCmd ∧ decode ⟨0x81, 0, []⟩ = .badCmd ∧
    decode ⟨0xC1, 0, []⟩ = .badCmd ∧ decode ⟨0x71, 0, []⟩ = .badCmd ∧ decode ⟨0x00, 0, []⟩ = .badCmd ∧
    decode ⟨0x07, 0, []⟩ = .badCmd ∧ decode ⟨0x16, 0, []⟩ = .badCmd ∧ decode ⟨0xFF, 0, []⟩ = .badCmd := by
  decide

/-- The opcode-table words of the first and the last row, and a number that is no command word. -/
theorem test_decodeTableWord :
    decodeTableWord 8 0x01 = some (.initH64 0) ∧ decodeTableWord 8 0x06 = some .caps ∧
    decodeTableWord 16 0x106 = none ∧ decodeTableWord 8 0x31 = none := by decide

/-! ### WellFormed: the check refuses an ill-formed term -/

/-- A payload of 2^64 bytes or more is no operand (R45). -/
theorem test_wellFormed_refuses (n : Nat) (h : 2 ^ 64 ≤ n) :
    (Instr.update (List.replicate n 0)).wellFormed = false ∧
    (Instr.hashH64 0 (List.replicate n 0)).wellFormed = false := by
  have hn : ¬ (List.replicate n (0 : Byte)).length < 2 ^ 64 := by
    rw [List.length_replicate]; exact Nat.not_lt.2 h
  exact ⟨decide_eq_false hn, decide_eq_false hn⟩

theorem test_wellFormed_accepts : (Instr.update [1]).wellFormed = true := by decide

/-- `REF` meets the constraints of R9: the premise of `LanesDivergeAtSeedZero`. -/
theorem test_params_wf : refParams.wf := by decide +kernel

/-- The remark at the end of R9: all multipliers of `REF` are odd; so are its adders, which are the same sets. -/
theorem test_ref_odd :
    ((refParams.words64 ++ refParams.words128 ++ refParams.words128c).all fun w => w.toNat % 2 == 1) = true := by
  decide +kernel

/-- The types refuse a rotation of 64 and a shift of 0. -/
theorem test_params_typed_refuses :
    ¬ Params.typed { refParams with rMix := 64 } ∧ ¬ Params.typed { refParams with a64S1 := 0 } :=
  ⟨by decide +kernel, by decide +kernel⟩

/-- The seed constants that broadcast the seed into each lane of `H64` are refused, and so are those of
90_conflicts.md C8, which left two pairs of lanes equal, and two equal lanes of `H128`. -/
theorem test_params_lanesDiverge_refuses :
    ¬ Params.lanesDiverge { refParams with s64Add := #v[0, 0, 0, 0], s64Mul := #v[1, 1, 1, 1] } ∧
    ¬ Params.lanesDiverge { refParams with
      s64Add := #v[0x62992FC1, 0x30BC5B29, 0xD6D018F5, 0xA2AA033B] } ∧
    ¬ Params.lanesDiverge { refParams with s128Mul := #v[0, 0] } :=
  ⟨by decide +kernel, by decide +kernel, by decide +kernel⟩

/-- A constant of one variant in the place of another's is refused, for each pair of variants. -/
theorem test_params_constantsDisjoint_refuses :
    ¬ Params.constantsDisjoint { refParams with a64M := 0xC83A91E1 } ∧
    ¬ Params.constantsDisjoint { refParams with a64M := 0xEE783E2F } ∧
    ¬ Params.constantsDisjoint { refParams with x128B := #v[0x8648DBDB, 0x2E4B2E1B] } :=
  ⟨by decide +kernel, by decide +kernel, by decide +kernel⟩

/-! ### Primitives (95_test_vectors.md 2.1) -/

theorem test_rotr64 :
    rotr64 0x0123456789ABCDEF 29 = 0x4D5E6F78091A2B3C ∧ rotr64 0x0123456789ABCDEF 64 = 0x0123456789ABCDEF ∧
    rotr64 0x0123456789ABCDEF 93 = 0x4D5E6F78091A2B3C := by decide +kernel
theorem test_rotl64 : rotl64 0x0123456789ABCDEF 8 = 0x23456789ABCDEF01 := by decide +kernel
theorem test_loadLE :
    loadLE [0x11, 0x22, 0x33, 0x44, 0x55, 0x66, 0x77, 0x88, 0x99] 0 3 = 0x332211 ∧
    loadLE [0x11, 0x22, 0x33, 0x44, 0x55, 0x66, 0x77, 0x88, 0x99] 1 8 = 0x9988776655443322 ∧
    loadLE [0xFF] 0 1 = 0xFF := by decide +kernel
theorem test_mix :
    mix refParams 0x0123456789ABCDEF 0xFEDCBA9876543210 0xD6D018F5 0xA2AA033B = 0xA16D266CC67341D8 := by
  decide +kernel
theorem test_tailstep :
    tailstep refParams 0x0123456789ABCDEF 0x61 0x62992FC1 0x30BC5B29 3 = 0xD6DFFECDE51561FE := by decide +kernel
theorem test_crc :
    crc32U8 refParams 0 0x80 = 0x82F63B78 ∧ crc32U8 refParams 0xFFFFFFFF 0x31 = 0x6F0A661C ∧
    crc32U64 refParams 0x89ABCDEF 0xFEDCBA9876543210 = 0xE43174CE := by decide +kernel
theorem test_crcstep :
    crcstep refParams true 0x0123456789ABCDEF 0x61 0x2E4B2E1B 3 = 0xD92FFA7CAB483DC8 := by decide +kernel

/-! ### Instructions -/

/-- 95_test_vectors.md 2.3, seed 0x0123456789ABCDEF. -/
theorem test_initH64 :
    lanesAfter (exec (.initH64 0x0123456789ABCDEF) State.reset) =
      [some 0xDEF6F36D87DD1D32, some 0x8777C51219BF8790, some 0x85AFA668676A6318, some 0x43104E4BCE5B0684] := by
  decide +kernel
theorem test_initH128 :
    lanesAfter (exec (.initH128 0x0123456789ABCDEF) State.reset) =
      [some 0x2CFED2D9B2E6C110, some 0xE7176EB277E6A18E, none, none] := by decide +kernel
theorem test_initH128C :
    lanesAfter (exec (.initH128C 0x0123456789ABCDEF) State.reset) =
      [some 0x9062C45816C4AB2A, some 0x015343B83B8924F6, none, none] := by decide +kernel

/-- `RESET` seeds by the variant held (95_test_vectors.md 2.3). -/
theorem test_reset :
    lanesAfter (exec (.reset 1) (stateOf (engineOf .h128 .accum abc))) =
      [some 0x2507ED055142E6AA, some 0x40F9D9A6F477ABB4, none, none] := by decide +kernel

/-- `UPDATE "abc"` on an empty engine: `len = 3`, `buf[0..2] = "abc"` (95_test_vectors.md 2.8). -/
theorem test_update_buffers :
    (stateAfter (exec (.update abc) (stateOf (engineOf .h64 .empty [])))).engine.buf = indexed abc ∧
    (stateAfter (exec (.update abc) (stateOf (engineOf .h64 .empty [])))).engine.len = some 3 := by decide +kernel

/-- Fill positions of the row "63, 37" of 95_test_vectors.md 2.7: 31 bytes are left after 63, then 4. -/
theorem test_update_position :
    fill (((stateAfter (exec (.update (digits 63)) (stateOf (engineOf .h64 .empty [])))).engine.len).getD 0) = 31 ∧
    ((stateAfter (exec (.update (digits 63)) (stateOf (engineOf .h64 .empty [])))).engine.buf).length = 31 := by
  decide +kernel

/-- `FINAL` after `INIT.H64 0` and `UPDATE "abc"`: the lanes of 2.3, the digest of 2.6. -/
theorem test_final :
    lastResponse (exec .final (stateOf { engineOf .h64 .accum abc with
      l0 := some 0x887E58B18EF29F77, l1 := some 0x3EA66B305D07447B,
      l2 := some 0x12C5448F803E40E9, l3 := some 0x28E511FEA41F163D })) =
    some { status := .ok, value := some (.digest [0xB3, 0x64, 0x31, 0x18, 0x4E, 0xE4, 0x35, 0x61]) } := by
  decide +kernel

/-- 95_test_vectors.md 2.5, 65 bytes at seed 0; 2.6, `"abc"` at seed 1. -/
theorem test_hashH64 :
    lastResponse (exec (.hashH64 1 abc) State.reset) =
      some { status := .ok, value := some (.digest [0xE8, 0x6D, 0x60, 0x99, 0x58, 0xBA, 0x7B, 0xC9]) } := by
  decide +kernel
theorem test_hashH128 :
    lastResponse (exec (.hashH128 0 (digits 65)) State.reset) =
      some { status := .ok, value := some (.digest
        [0x00, 0xAB, 0xF0, 0x6E, 0x5F, 0xD5, 0xD6, 0xC3, 0xE7, 0x93, 0x47, 0x38, 0x02, 0x6E, 0xC4, 0x39]) } := by
  decide +kernel
theorem test_hashH128C :
    lastResponse (exec (.hashH128C 0 (digits 65)) State.reset) =
      some { status := .ok, value := some (.digest
        [0x5B, 0x28, 0xC7, 0x92, 0x43, 0xA9, 0x9C, 0xD1, 0x92, 0x57, 0xD9, 0x10, 0xDB, 0xDC, 0xD3, 0xE9]) } := by
  decide +kernel

/-- R141 item 3: the digests of the empty input at seeds 0 and 1. -/
theorem test_emptyInput :
    digestAfter (streamCommands .h64 0 []) State.reset =
      some [0x64, 0x21, 0x35, 0xAE, 0x3D, 0xBB, 0x46, 0x77] ∧
    digestAfter (streamCommands .h64 1 []) State.reset =
      some [0x3A, 0x3C, 0x18, 0x47, 0x6E, 0x11, 0x31, 0xE8] := by decide +kernel

/-- 95_test_vectors.md 2.10: probe answer (1, 0, 1) gives `caps=10`, a failed query `caps=00`. -/
theorem test_caps :
    lastResponse (exec .caps { State.reset with probe := { ok := true, simd := false, crc := true } }) =
      some { status := .ok, value := some (.caps 0b10) } ∧
    lastResponse (exec .caps { State.reset with probe := { ok := false, simd := true, crc := true } }) =
      some { status := .ok, value := some (.caps 0b00) } := by decide +kernel

/-- The first instruction after reset is the opcode-table word offered. -/
theorem test_withFetchWord :
    step (State.reset.withFetchWord 8 0x15) = exec (.hashH128 0 []) State.reset ∧
    step (State.reset.withFetchWord 8 0x06) = exec .caps State.reset := by
  constructor <;> rfl

/-! ### Witnesses -/

/-- `DecodeEncodeAgree`, second clause: a transaction with stray operands. -/
theorem test_witness_decodeEncode :
    decode ⟨0x06, 5, [7]⟩ = .instr .caps ∧ (encode .caps).cmd = 0x06 ∧ (encode .caps).payload = [] := by decide

/-- `ReservedWordsRefused`: a word for each way to be reserved, at the ends of the ranges: `rsv` 1, `op` 0 and
7, a stray `var` on `UPDATE`, and selector 3 on `HASH`; the phase is `FINAL`. -/
theorem test_witness_reserved :
    (offer ⟨0x32, 0, []⟩ (finalOf (engineOf .h64 .accum abc))).pending = ⟨0x32, 0, []⟩ :: [] ∧
    (0x40 : Byte).toNat / 64 ≠ 0 ∧ (0x00 : Byte).toNat % 16 = 0 ∧ 7 ≤ (0x07 : Byte).toNat % 16 ∧
    ((0x32 : Byte).toNat % 16 = 2 ∧ (0x32 : Byte).toNat / 16 % 4 ≠ 0) ∧
    ((0x35 : Byte).toNat / 64 = 0 ∧ (0x35 : Byte).toNat % 16 = 5 ∧ (0x35 : Byte).toNat / 16 % 4 = 3) := by
  decide +kernel

/-- `StepRunsDecodedCommand`, both clauses. -/
theorem test_witness_step :
    (offer ⟨0x02, 0, abc⟩ State.reset).pending = ⟨0x02, 0, abc⟩ :: [] ∧
    decode ⟨0x02, 0, abc⟩ = .instr (.update abc) ∧ (Instr.update abc).payload.length < 2 ^ 64 ∧
    State.reset.pending = [] := by decide

/-- The rotations at the last bit, with an amount above 64. -/
theorem test_witness_rotate : (63 : Nat) < 64 ∧ (rotr64 1 65).getLsbD 63 = true ∧ (rotl64 1 127).getLsbD 63 = true := by
  decide +kernel

/-- `LoadIsLittleEndianAndZeroExtends` at both ends of the width, and `StoreIsInverseOfLoad` on its last byte. -/
theorem test_witness_load :
    (1 ≤ 1 ∧ 1 ≤ 8 ∧ 0 + 1 ≤ [(0xFF : Byte)].length) ∧ (1 ≤ 8 ∧ 8 ≤ 8 ∧ 1 + 8 ≤ (digits 9).length) ∧
    7 < 8 ∧ (digits 8).length = 8 := by decide

/-- `MixIsModularArithmetic` on a vector of 95_test_vectors.md 2.1: the two intermediate numbers exist. -/
theorem test_witness_mix :
    ∃ x q : Nat, x = (1 : Word).toNat * (0xD6D018F5 : Word).toNat % 2 ^ 64 ∧
      q = (x / 2 ^ (refParams.rMix % 64) + x * 2 ^ (64 - refParams.rMix % 64)) % 2 ^ 64 ∧
      (mix refParams 0 1 0xD6D018F5 0xA2AA033B).toNat = 0x7794FBBBCFFC1362 := ⟨_, _, rfl, rfl, by decide +kernel⟩

/-- The premises of the bijection statements: shifts at both ends, `REF`'s constants odd, widths 1 and 8. -/
theorem test_witness_bijections :
    (1 ≤ 1 ∧ 63 ≤ 63) ∧ refParams.a64M.toNat % 2 = 1 ∧ refParams.b64A[0].toNat % 2 = 1 ∧
    refParams.b64B[0].toNat % 2 = 1 ∧ refParams.t128cB[0].toNat % 2 = 1 ∧
    (∀ i : Fin 8, 1 ≤ refParams.tailSh[i] ∧ refParams.tailSh[i] ≤ 63) ∧ 1 ≤ 8 ∧ 8 ≤ 8 := by decide +kernel

/-- `TailPlanCoversResidual`: the plan of 31 bytes has four loads, that of 0 none (R71). -/
theorem test_witness_plan :
    (plan 31).map (fun l => (l.off, l.width)) = [(0, 8), (8, 8), (16, 8), (24, 7)] ∧ plan 0 = [] := by decide

/-- `LanesIndependentInBlock`: two lane files and two blocks that agree in lane and word 3 alone. -/
theorem test_witness_lanes :
    (⟨1, 2, 3, 9⟩ : Lanes4).v3 = (⟨4, 5, 6, 9⟩ : Lanes4).v3 ∧
    loadLE (List.replicate 32 7) 24 8 = loadLE (List.replicate 24 6 ++ List.replicate 8 7) 24 8 ∧
    loadLE (List.replicate 32 7) 0 8 ≠ loadLE (List.replicate 24 6 ++ List.replicate 8 7) 0 8 := by decide +kernel

/-- `capsAre`, both clauses: detection still to run with a query that fails, and with one that answers; and
detection that has run. The premise of the `INIT`, `HASH` and `CAPS` statements. -/
theorem test_witness_capsAre :
    State.reset.capsAre { simd := false, crc := false } ∧
    State.capsAre { State.reset with probe := { ok := true, simd := true, crc := false } }
      { simd := true, crc := false } ∧
    (stateOf (engineOf .h64 .empty [])).capsAre { simd := false, crc := true } := by decide

/-- Valid states of every phase and variant, the buffer empty, in use and full: the premise of the statements
about valid states. -/
theorem test_witness_valid :
    State.reset.valid ∧ (stateOf (engineOf .h64 .empty [])).valid ∧
    (stateOf (engineOf .h128 .accum abc)).valid ∧ (stateOf (engineOf .h128c .accum (digits 31))).valid :=
  ⟨valid_of (by decide +kernel), valid_of (by decide +kernel), valid_of (by decide +kernel),
    valid_of (by decide +kernel)⟩

theorem test_witness_valid_final :
    (finalOf (engineOf .h64 .accum abc)).valid ∧ (finalOf (engineOf .h128 .accum abc)).valid ∧
    (finalOf (engineOf .h128c .accum (digits 31))).valid :=
  ⟨valid_of (by decide +kernel), valid_of (by decide +kernel), valid_of (by decide +kernel)⟩

/-- `ResetEffect`, `ResetGivesAFreshEngine` and `ResetRespondsAsFreshEngine`: every variant, phases `ACCUM` and `EMPTY`. -/
theorem test_witness_reset :
    (stateOf (engineOf .h64 .accum abc)).engine.phase ≠ .unconf ∧
    (stateOf (engineOf .h64 .accum abc)).engine.variant = some .h64 ∧
    (stateOf (engineOf .h128 .accum abc)).engine.variant = some .h128 ∧
    (stateOf (engineOf .h128c .accum abc)).engine.variant = some .h128c ∧
    (stateOf (engineOf .h64 .accum abc)).valid ∧ (stateOf (engineOf .h128c .empty [])).valid ∧
    (stateOf (engineOf .h64 .accum abc)).params = (stateOf (engineOf .h128c .empty [])).params ∧
    (stateOf (engineOf .h64 .accum abc)).probe = (stateOf (engineOf .h128c .empty [])).probe :=
  ⟨by decide, rfl, rfl, rfl, valid_of (by decide +kernel), valid_of (by decide +kernel), rfl, rfl⟩

/-- `UpdateH64Effect` and `FinalH64Effect`: an engine with 31 bytes in the buffer, the last position. -/
theorem test_witness_h64 :
    let s := stateOf (engineOf .h64 .accum (digits 31))
    (s.engine.phase = .empty ∨ s.engine.phase = .accum) ∧ s.engine.variant = some .h64 ∧
    s.engine.len = some 31 ∧ s.engine.l0 = some 1 ∧ s.engine.l1 = some 2 ∧ s.engine.l2 = some 3 ∧
    s.engine.l3 = some 4 ∧ s.engine.buf = indexed (digits 31) ∧ (digits 31).length = (31 : Word).toNat % 32 := by
  decide +kernel

/-- `UpdateH128Effect` and `FinalH128Effect`: both variants, an empty buffer and a full one. -/
theorem test_witness_h128 :
    let s := stateOf (engineOf .h128 .empty [])
    let t := stateOf (engineOf .h128c .accum (digits 31))
    s.engine.phase = .empty ∧ s.engine.variant = some .h128 ∧ s.engine.len = some 0 ∧ s.engine.l0 = some 1 ∧
    s.engine.l1 = some 2 ∧ s.engine.buf = indexed [] ∧ t.engine.phase = .accum ∧
    t.engine.variant = some .h128c ∧ t.engine.len = some 31 ∧ t.engine.buf = indexed (digits 31) ∧
    t.engine.path.isSome = true := by decide +kernel

/-- `UpdateOneByteFrame`: fill positions 30 and 31, where its clauses meet. -/
theorem test_witness_oneByte :
    (∃ t, exec (.update [7]) (stateOf (engineOf .h64 .accum (digits 30))) = .next t) ∧ fill 30 < 31 ∧
    (∃ t, exec (.update [7]) (stateOf (engineOf .h64 .accum (digits 31))) = .next t) ∧ fill 31 = 31 :=
  ⟨exists_next (by decide +kernel), by decide, exists_next (by decide +kernel), by decide⟩

/-- `DetectionRunsOnce`: both values of `caps_valid`, and a command of each group. -/
theorem test_witness_detection :
    (∃ t, exec .caps State.reset = .next t) ∧ State.reset.dispatcher.capsValid = false ∧
    (∃ t, exec .final State.reset = .next t) ∧
    (∃ t, exec .caps (stateOf (engineOf .h64 .empty [])) = .next t) ∧
    (stateOf (engineOf .h64 .empty [])).dispatcher.capsValid = true :=
  ⟨exists_next (by decide +kernel), rfl, exists_next (by decide +kernel), exists_next (by decide +kernel), rfl⟩

/-- `UpdateAfterFinalRefused`, `SecondFinalShowsHeldDigest` and `HeldDigestIsImmutable`: a finalised engine, a
second `FINAL` and a `CAPS` that leave it so. -/
theorem test_witness_final :
    let s := finalOf (engineOf .h64 .accum abc)
    s.engine.phase = .final ∧ s.engine.variant = some .h64 ∧ s.engine.digest.isSome = true ∧
    (stateAfter (exec .final s)).engine.phase = .final ∧ (stateAfter (exec .caps s)).engine.phase = .final ∧
    (lastResponse (exec .final s)).map Response.status = some .errRefinalize := by decide +kernel

/-- `MisuseIsReportedEveryTime`: a finalised engine that holds a digest, and a sequence of both commands; the
statuses come in the order of the commands. -/
theorem test_witness_misuse :
    let s := finalOf (engineOf .h64 .accum abc)
    let is := [Instr.update [], .final, .update abc]
    s.engine.phase = .final ∧ s.engine.variant = some .h64 ∧ s.engine.digest.isSome = true ∧
    (is.all fun i => i == .final || i == .update [] || i == .update abc) = true ∧
    (responsesOf is s).map (·.map Response.status) = some [.errFinalized, .errRefinalize, .errFinalized] := by
  decide +kernel

/-- `HashIsAFunctionOfItsOperands`: a valid state at reset and a valid finalised one, their engines and probe
answers apart, under the same `P`. -/
theorem test_witness_function :
    State.reset.valid ∧ (finalOf (engineOf .h128 .accum abc)).valid ∧
    State.reset.params = (finalOf (engineOf .h128 .accum abc)).params ∧
    State.reset.probe ≠ (finalOf (engineOf .h128 .accum abc)).probe :=
  ⟨valid_of (by decide +kernel), valid_of (by decide +kernel), by decide +kernel, by decide +kernel⟩

/-- `UnconfiguredEngineRefuses` and `OneResponseAndRefusalsChangeNothing`: an accepted command, and a refused
one. -/
theorem test_witness_refusal :
    State.reset.engine.phase = .unconf ∧ (∃ t, issue ⟨0x06, 0, []⟩ State.reset = .next t) ∧
    (∃ t, issue ⟨0x02, 0, []⟩ State.reset = .next t) ∧
    lastResponse (issue ⟨0x02, 0, []⟩ State.reset) = some { status := .errUnconfigured, value := none } :=
  ⟨rfl, exists_next (by decide +kernel), exists_next (by decide +kernel), by decide +kernel⟩

/-- `CommandFrames`: the four commands complete on one state. -/
theorem test_witness_frames :
    let s := stateOf (engineOf .h128 .accum abc)
    (∃ t, exec (.update abc) s = .next t) ∧ (∃ t, exec .final s = .next t) ∧
    (∃ t, exec (.reset 1) s = .next t) ∧ (∃ t, exec .caps s = .next t) ∧ s.engine.variant ≠ some .h64 :=
  ⟨exists_next (by decide +kernel), exists_next (by decide +kernel), exists_next (by decide +kernel),
    exists_next (by decide +kernel), by decide⟩

/-- The step invariants: a valid state with a pending command that completes. -/
theorem test_witness_stepValid :
    (offer ⟨0x03, 0, []⟩ (stateOf (engineOf .h64 .accum abc))).valid ∧
    (offer ⟨0x03, 0, []⟩ (stateOf (engineOf .h64 .accum abc))).snapshot ∧
    ∃ t, step (offer ⟨0x03, 0, []⟩ (stateOf (engineOf .h64 .accum abc))) = .next t :=
  ⟨valid_of (by decide +kernel), fun h => absurd h (by decide), exists_next (by decide +kernel)⟩

/-- A state that holds the digest of its own engine: the premise `snapshot` in phase `FINAL`. -/
theorem test_witness_snapshot :
    let s := finalOf (engineOf .h128c .accum abc)
    s.engine.phase = .final ∧ (finalDigest s.params s.engine).toOption = s.engine.digest ∧
    s.engine.digest.isSome = true := by decide +kernel

/-- `NoResponseDependsOnPath` and `NoSequenceShowsThePath`: two valid `H128C` states on the two paths, their
dispatchers and probe answers apart. -/
theorem test_witness_path :
    let s := stateOf (engineOf .h128c .accum abc)
    let t := { s with
      engine := { s.engine with path := some { simd := false, crc := false } }
      dispatcher := { capsValid := true, caps := some { simd := false, crc := false } }
      probe := { ok := false, simd := false, crc := false } }
    s.valid ∧ t.valid ∧ sameButPath s t ∧ Instr.final ≠ .caps ∧ ([Instr.final, .reset 1].all (· != .caps)) = true :=
  ⟨valid_of (by decide +kernel), valid_of (by decide +kernel), by decide +kernel, by decide, by decide⟩

/-- A device of two engines in different phases, each with a command pending. -/
def twoEngines : Device where
  dispatcher := { capsValid := true, caps := some { simd := false, crc := true } }
  params := refParams
  probe := { ok := true, simd := false, crc := true }
  ports :=
    [{ engine := engineOf .h64 .accum abc, pending := [⟨0x03, 0, []⟩], responses := [] },
     { engine := Engine.reset, pending := [⟨0x11, 1, []⟩], responses := [] }]

theorem deviceValid_of {d : Device} (h : (d.ports.all fun p => validB (portState d p)) = true) : d.valid :=
  fun p hp => valid_of (List.all_eq_true.1 h p hp)

/-- Whether a device's step completes. -/
def deviceCompletes (o : Host.Outcome Device Fault Refusal) : Bool :=
  match o with
  | .next _ => true
  | .fault _ => false
  | .refused _ => false

theorem exists_nextDevice {o : Host.Outcome Device Fault Refusal} (h : deviceCompletes o = true) :
    ∃ d, o = .next d := by
  cases o <;> simp_all [deviceCompletes]

/-- The statements about devices: a valid device on which both orders of two commands complete; and one of
engines at reset, where the second command runs detection. -/
theorem test_witness_device :
    twoEngines.valid ∧ (∃ d, stepTwo 0 1 twoEngines = .next d) ∧ (deviceReset 2).valid ∧
    (∃ d, stepPort 1 (deviceReset 2) = .next d) :=
  ⟨deviceValid_of (by decide +kernel), exists_nextDevice (by decide +kernel), deviceValid_of (by decide +kernel),
    exists_nextDevice (by decide +kernel)⟩

end Sys2Proof.Tests
end

section
/-! Proofs about the primitives of 40_primitives.md: rotation (section 2). -/

namespace Sys2Proof.Machine

/-! ### Rotation

The spec writes a right rotation as a sum of two shifts. The shifts have no bit in common, so the sum is a
disjunction: the library's `BitVec.rotateRight`. -/

/-- A word shifted right by `m` and shifted left by `64 - m` has no bit in common with itself. -/
theorem ushiftRight_and_shiftLeft_compl (x : Word) (m : Nat) : x >>> m &&& x <<< (64 - m) = 0#64 := by
  refine BitVec.eq_of_getLsbD_eq fun i _ => ?_
  rw [BitVec.getLsbD_and, BitVec.getLsbD_ushiftRight, BitVec.getLsbD_shiftLeft, BitVec.getLsbD_zero]
  by_cases hi : i < 64 - m
  · simp [hi]
  · have hhigh : x.getLsbD (m + i) = false := BitVec.getLsbD_of_ge x (m + i) (by omega)
    simp [hhigh]

/-- R65's sum of two shifts is the rotation of the library. -/
theorem rotr64_eq_rotateRight (x : Word) (n : Nat) : rotr64 x n = x.rotateRight n := by
  simp only [rotr64, BitVec.rotateRight_def]
  split
  case isTrue hzero => simp [hzero]
  case isFalse => exact BitVec.add_eq_or_of_and_eq_zero _ _ (ushiftRight_and_shiftLeft_compl x (n % 64))

/-- Bit `i` of a right rotation is bit `(i + n) mod 64` of the word (R65). -/
theorem getLsbD_rotr64 (x : Word) (n : Nat) {i : Nat} (hi : i < 64) :
    (rotr64 x n).getLsbD i = x.getLsbD ((i + n) % 64) := by
  rw [rotr64_eq_rotateRight, BitVec.getLsbD_rotateRight]
  by_cases hlow : i < 64 - n % 64
  · have hsource : (i + n) % 64 = n % 64 + i := by omega
    simp [hlow, hsource]
  · have hsource : (i + n) % 64 = i - (64 - n % 64) := by omega
    simp [hlow, hi, hsource]

/-- Bit `(i + n) mod 64` of a left rotation is bit `i` of the word (R66): the complementary right rotation
leads that bit back to `i`. -/
theorem getLsbD_rotl64 (x : Word) (n : Nat) {i : Nat} (hi : i < 64) :
    (rotl64 x n).getLsbD ((i + n) % 64) = x.getLsbD i := by
  have hback : ((i + n) % 64 + (64 - n % 64) % 64) % 64 = i := by omega
  rw [rotl64, getLsbD_rotr64 x _ (Nat.mod_lt _ (by decide)), hback]

/-- Settles O6: the bit form of R65, from the library's rotation. -/
theorem rotateRightMovesBits : Obligations.RotateRightMovesBits :=
  fun x n _ hi => getLsbD_rotr64 x n hi

/-- Settles O7: the definition of R66 and its bit form. -/
theorem rotateLeftMovesBits : Obligations.RotateLeftMovesBits :=
  fun x n _ hi => ⟨rfl, getLsbD_rotl64 x n hi⟩

end Sys2Proof.Machine
end

section
/-! Proofs about construction: the `INIT.*` commands of 45_commands.md (R128, R129). -/

namespace Sys2Proof.Machine

/-! ### The command word of an `INIT` -/

/-- A word without reserved bits and with operation code 1 decodes as an `INIT`, its variant read from the
selector; a payload beside it is ignored (R45, R58). -/
theorem decode_init {w : Byte} (hrsv : rsvField w = 0) (hop : (opField w).toNat = 1) (seed : Word)
    (b : List Byte) :
    decode { cmd := w, seed := seed, payload := b } = decodeInit (varField w).toNat seed := by
  simp only [decode, hrsv, hop, ne_eq, not_true_eq_false, if_false]

/-! ### The seed step, field by field -/

/-- The seed step of `H64` writes `len` and all four lanes (R81). -/
theorem seedStep_h64_eq (p : Params) (seed : Word) (e : Engine) :
    seedStep p .h64 seed e = { e with
      len := some 0
      l0 := some ((seed + p.s64Add[0]) * p.s64Mul[0])
      l1 := some ((seed + p.s64Add[1]) * p.s64Mul[1])
      l2 := some ((seed + p.s64Add[2]) * p.s64Mul[2])
      l3 := some ((seed + p.s64Add[3]) * p.s64Mul[3]) } := rfl

/-- The seed step of `H128` writes `len`, `lo` and `hi`, and takes the values from `L[2]` and `L[3]`
(R94, R15). -/
theorem seedStep_h128_eq (p : Params) (seed : Word) (e : Engine) :
    seedStep p .h128 seed e = { e with
      len := some 0
      l0 := some ((seed + p.s128Add[0]) * p.s128Mul[0])
      l1 := some ((seed + p.s128Add[1]) * p.s128Mul[1])
      l2 := none
      l3 := none } := rfl

/-! ### Construction completes -/

/-- A construction answered without a value: it completes from every state whose capabilities are known or can
be detected, whatever the phase, with the whole next state in terms of the seed step. -/
theorem answerPlain_construct {s : State} {c : Caps} (hcaps : s.capsAre c) (v : Variant) (seed : Word) :
    answerPlain (construct v seed s) = .next { s with
      dispatcher := { capsValid := true, caps := some c }
      engine := { seedStep s.params v seed s.engine with
        variant := some v, path := some { simd := c.simd, crc := c.crc },
        buf := [], digest := none, phase := .empty }
      responses := s.responses ++ [{ status := .ok, value := none }] } := by
  have hdetect := detect_of_capsAre hcaps
  have hheld : (detect s.probe s.dispatcher).caps = some c := by rw [hdetect]
  refine answerPlain_next_iff.2 ⟨_, construct_ok_iff.2 ⟨c, hheld, rfl⟩, ?_⟩
  rw [hdetect, respond]

/-- Settles O20: detection and the latched path by `answerPlain_construct`, the lanes by `seedStep_h64_eq`. -/
theorem initH64Effect : Obligations.InitH64Effect := by
  intro seed s c hcaps
  refine ⟨fun b => decode_init (by decide) (by decide) seed b, ?_⟩
  rw [exec, execInitH64, answerPlain_construct hcaps, seedStep_h64_eq]

/-- Settles O21: as `initH64Effect`, the lanes by `seedStep_h128_eq`. -/
theorem initH128Effect : Obligations.InitH128Effect := by
  intro seed s c hcaps
  refine ⟨fun b => decode_init (by decide) (by decide) seed b, ?_⟩
  rw [exec, execInitH128, answerPlain_construct hcaps, seedStep_h128_eq]

end Sys2Proof.Machine
end

section
/-! Proofs about refusals: reserved command words and the misuses of 60_exceptions.md (R144 to R147). -/

namespace Sys2Proof.Machine

/-! ### The fields of a command word, by arithmetic (R46) -/

theorem rsvField_toNat (w : Byte) : (rsvField w).toNat = w.toNat / 64 := by
  have hbyte := w.isLt
  rw [rsvField, BitVec.extractLsb'_toNat, Nat.shiftRight_eq_div_pow]
  omega

theorem varField_toNat (w : Byte) : (varField w).toNat = w.toNat / 16 % 4 := by
  rw [varField, BitVec.extractLsb'_toNat, Nat.shiftRight_eq_div_pow]

theorem opField_toNat (w : Byte) : (opField w).toNat = w.toNat % 16 := by
  rw [opField, BitVec.extractLsb'_toNat, Nat.shiftRight_zero]

theorem rsvField_eq_zero_iff (w : Byte) : rsvField w = 0 ↔ w.toNat / 64 = 0 := by
  rw [BitVec.toNat_eq, rsvField_toNat]
  rfl

/-! ### The ways for a word to be reserved (R50, R58) -/

section
variable {c : Command}

/-- A set bit of `CMD[7:6]` is looked at first: it hides a selector 3. -/
theorem decode_of_rsv_ne_zero (hrsv : c.cmd.toNat / 64 ≠ 0) : decode c = .badCmd :=
  if_pos ((rsvField_eq_zero_iff c.cmd).not.2 hrsv)

theorem decode_of_unused_op (hop : c.cmd.toNat % 16 = 0 ∨ 7 ≤ c.cmd.toNat % 16) : decode c = .badCmd := by
  simp only [decode, opField_toNat]
  split
  case isTrue => rfl
  case isFalse =>
    split
    case h_7 => rfl
    all_goals omega

/-- A variant selector beside an operation that takes none. -/
theorem decode_of_stray_variant
    (hop : c.cmd.toNat % 16 = 2 ∨ c.cmd.toNat % 16 = 3 ∨ c.cmd.toNat % 16 = 4 ∨ c.cmd.toNat % 16 = 6)
    (hvar : c.cmd.toNat / 16 % 4 ≠ 0) : decode c = .badCmd := by
  have hplain (i : Instr) : decodePlain (c.cmd.toNat / 16 % 4) i = .badCmd := if_neg hvar
  rcases hop with hop | hop | hop | hop <;>
    simp only [decode, opField_toNat, varField_toNat, hop, hplain, ite_self]

/-- `INIT` or `HASH` with selector 3 (R146). -/
theorem decode_of_selector_three (hrsv : c.cmd.toNat / 64 = 0)
    (hop : c.cmd.toNat % 16 = 1 ∨ c.cmd.toNat % 16 = 5) (hvar : c.cmd.toNat / 16 % 4 = 3) :
    decode c = .badVariant := by
  have hzero : rsvField c.cmd = 0 := (rsvField_eq_zero_iff c.cmd).2 hrsv
  rcases hop with hop | hop <;>
    simp only [decode, opField_toNat, varField_toNat, hop, hvar, hzero, decodeInit, decodeHash, ne_eq,
      not_true_eq_false, if_false]

end

/-! ### A step on a reserved word (R126, R148) -/

section
variable {s : State} {c : Command} {rest : List Command}

theorem step_of_pending (hpending : s.pending = c :: rest) : step s = issue c { s with pending := rest } := by
  rw [step, takeCommand, hpending]

theorem step_of_badCmd (hpending : s.pending = c :: rest) (hdecode : decode c = .badCmd) :
    step s = .next (misuse .errBadCmd none { s with pending := rest }) := by
  rw [step_of_pending hpending, issue, hdecode]

theorem step_of_badVariant (hpending : s.pending = c :: rest) (hdecode : decode c = .badVariant) :
    step s = .next (misuse .errBadVariant none { s with pending := rest }) := by
  rw [step_of_pending hpending, issue, hdecode]

end

/-- Settles O4: each way to be reserved decodes to its kind, and the step answers the kind. -/
theorem reservedWordsRefused : Obligations.ReservedWordsRefused := by
  refine fun s c rest hpending => ⟨fun hbad => step_of_badCmd hpending ?_, fun ⟨hrsv, hop, hvar⟩ =>
    step_of_badVariant hpending (decode_of_selector_three hrsv hop hvar)⟩
  rcases hbad with hrsv | hzero | hseven | ⟨hop, hvar⟩
  · exact decode_of_rsv_ne_zero hrsv
  · exact decode_of_unused_op (.inl hzero)
  · exact decode_of_unused_op (.inr hseven)
  · exact decode_of_stray_variant hop hvar

/-! ### Misuse of the life cycle (R144, R145) -/

/-- The width of a digest on the wire: 8 bytes for `H64`, 16 for the others (R55). -/
theorem digestValue_eq_storeLE (v : Variant) (d : Word128) :
    digestValue v d = storeLE d.toNat (if v = .h64 then 8 else 16) := by
  cases v <;> rfl

/-- Settles O43: `FINAL` in phase `FINAL` is the misuse that shows what `heldDigest` reads. -/
theorem secondFinalShowsHeldDigest : Obligations.SecondFinalShowsHeldDigest := by
  intro s v d hphase hvariant hdigest
  have hheld : heldDigest s = .ok (.digest (digestValue v d)) :=
    heldDigest_ok_iff.2 ⟨v, d, hvariant, hdigest, rfl⟩
  refine execFinal_next_iff.2 (.inr (.inl ⟨hphase, _, hheld, ?_⟩))
  rw [digestValue_eq_storeLE, misuse, respond]

/-- Settles O44: the `UNCONF` column of each of the three commands. -/
theorem unconfiguredEngineRefuses : Obligations.UnconfiguredEngineRefuses := by
  rintro i s hphase (⟨c, rfl⟩ | rfl | ⟨seed, rfl⟩)
  · have hstatus : updateStatus s.engine.phase = .errUnconfigured := by rw [hphase, updateStatus]
    refine execUpdate_next_iff.2 (.inr ⟨by simp [hstatus], ?_⟩)
    rw [hstatus, misuse, respond]
  · exact execFinal_next_iff.2 (.inr (.inr ⟨hphase, rfl⟩))
  · exact execReset_next_iff.2 (.inr ⟨hphase, rfl⟩)

end Sys2Proof.Machine
end

section
/-! Proofs about the encoding of commands (30_encoding.md sections 1 to 4) and the step that decodes them. -/

namespace Sys2Proof.Machine

/-! ### The commands in six groups

`INIT` and `HASH` are three commands each, one per variant; what holds of them holds for every variant alike. -/

/-- A property of every command is proved for the six groups of R47. -/
theorem instr_cases {motive : Instr → Prop}
    (init : ∀ v seed, motive (initOf v seed)) (update : ∀ c, motive (.update c)) (final : motive .final)
    (reset : ∀ seed, motive (.reset seed)) (hash : ∀ v seed b, motive (hashOf v seed b))
    (caps : motive .caps) (i : Instr) : motive i := by
  cases i with
  | initH64 seed => exact init .h64 seed
  | initH128 seed => exact init .h128 seed
  | initH128C seed => exact init .h128c seed
  | update c => exact update c
  | final => exact final
  | reset seed => exact reset seed
  | hashH64 seed b => exact hash .h64 seed b
  | hashH128 seed b => exact hash .h128 seed b
  | hashH128C seed b => exact hash .h128c seed b
  | caps => exact caps

/-! ### What each part of the decoder accepts -/

theorem decodeInit_eq_instr_iff {var : Nat} {seed : Word} {i : Instr} :
    decodeInit var seed = .instr i ↔ ∃ v, var = (variantCode v).toNat ∧ i = initOf v seed := by
  constructor
  · intro h
    unfold decodeInit at h
    split at h
    · exact ⟨.h64, rfl, (Decoded.instr.inj h).symm⟩
    · exact ⟨.h128, rfl, (Decoded.instr.inj h).symm⟩
    · exact ⟨.h128c, rfl, (Decoded.instr.inj h).symm⟩
    · cases h
  · rintro ⟨v, rfl, rfl⟩
    cases v <;> rfl

theorem decodeHash_eq_instr_iff {var : Nat} {seed : Word} {b : List Byte} {i : Instr} :
    decodeHash var seed b = .instr i ↔ ∃ v, var = (variantCode v).toNat ∧ i = hashOf v seed b := by
  constructor
  · intro h
    unfold decodeHash at h
    split at h
    · exact ⟨.h64, rfl, (Decoded.instr.inj h).symm⟩
    · exact ⟨.h128, rfl, (Decoded.instr.inj h).symm⟩
    · exact ⟨.h128c, rfl, (Decoded.instr.inj h).symm⟩
    · cases h
  · rintro ⟨v, rfl, rfl⟩
    cases v <;> rfl

theorem decodePlain_eq_instr_iff {var : Nat} {i j : Instr} :
    decodePlain var j = .instr i ↔ var = 0 ∧ i = j := by
  unfold decodePlain
  split <;> simp_all [eq_comm]

/-- The decoder, read backwards: a transaction is a command exactly by a row of R47, its fields computed from the
word by arithmetic. -/
theorem decode_eq_instr_iff {c : Command} {i : Instr} :
    decode c = .instr i ↔ c.cmd.toNat / 64 = 0 ∧
      ((c.cmd.toNat % 16 = 1 ∧ ∃ v, c.cmd.toNat / 16 % 4 = (variantCode v).toNat ∧ i = initOf v c.seed) ∨
        (c.cmd.toNat % 16 = 2 ∧ c.cmd.toNat / 16 % 4 = 0 ∧ i = .update c.payload) ∨
        (c.cmd.toNat % 16 = 3 ∧ c.cmd.toNat / 16 % 4 = 0 ∧ i = .final) ∨
        (c.cmd.toNat % 16 = 4 ∧ c.cmd.toNat / 16 % 4 = 0 ∧ i = .reset c.seed) ∨
        (c.cmd.toNat % 16 = 5 ∧
          ∃ v, c.cmd.toNat / 16 % 4 = (variantCode v).toNat ∧ i = hashOf v c.seed c.payload) ∨
        (c.cmd.toNat % 16 = 6 ∧ c.cmd.toNat / 16 % 4 = 0 ∧ i = .caps)) := by
  by_cases hrsv : c.cmd.toNat / 64 = 0
  case neg => simp [decode_of_rsv_ne_zero hrsv, hrsv]
  case pos =>
    have hzero : rsvField c.cmd = 0 := (rsvField_eq_zero_iff c.cmd).2 hrsv
    simp only [decode, hzero, hrsv, opField_toNat, varField_toNat, ne_eq, not_true_eq_false, if_false,
      true_and]
    split
    case h_1 hop => simp [hop, decodeInit_eq_instr_iff]
    case h_2 hop => simp [hop, decodePlain_eq_instr_iff]
    case h_3 hop => simp [hop, decodePlain_eq_instr_iff]
    case h_4 hop => simp [hop, decodePlain_eq_instr_iff]
    case h_5 hop => simp [hop, decodeHash_eq_instr_iff]
    case h_6 hop => simp [hop, decodePlain_eq_instr_iff]
    case h_7 =>
      simp only [reduceCtorEq, false_iff]
      grind

/-! ### The encoder's word, by arithmetic (R47) -/

/-- No variant has the selector code 3 (R48). -/
theorem variantCode_lt (v : Variant) : (variantCode v).toNat < 3 := by
  cases v <;> decide

theorem encode_initOf_seed (v : Variant) (seed : Word) : (encode (initOf v seed)).seed = seed := by
  cases v <;> rfl

theorem encode_hashOf_seed (v : Variant) (seed : Word) (b : List Byte) :
    (encode (hashOf v seed b)).seed = seed := by
  cases v <;> rfl

theorem encode_hashOf_payload (v : Variant) (seed : Word) (b : List Byte) :
    (encode (hashOf v seed b)).payload = b := by
  cases v <;> rfl

theorem encode_initOf_cmd (v : Variant) (seed : Word) :
    (encode (initOf v seed)).cmd.toNat = 16 * (variantCode v).toNat + 1 := by
  cases v <;> rfl

theorem encode_hashOf_cmd (v : Variant) (seed : Word) (b : List Byte) :
    (encode (hashOf v seed b)).cmd.toNat = 16 * (variantCode v).toNat + 5 := by
  cases v <;> rfl

/-- A transaction that decodes to a command carries the encoder's word: the three fields determine it. -/
theorem encode_cmd_of_decode {c : Command} {i : Instr} (h : decode c = .instr i) : (encode i).cmd = c.cmd := by
  obtain ⟨hrsv, hrow⟩ := decode_eq_instr_iff.1 h
  apply BitVec.eq_of_toNat_eq
  rcases hrow with ⟨hop, v, hvar, rfl⟩ | ⟨hop, hvar, rfl⟩ | ⟨hop, hvar, rfl⟩ | ⟨hop, hvar, rfl⟩ |
    ⟨hop, v, hvar, rfl⟩ | ⟨hop, hvar, rfl⟩
  · rw [encode_initOf_cmd]; omega
  · change 0x02 = c.cmd.toNat; omega
  · change 0x03 = c.cmd.toNat; omega
  · change 0x04 = c.cmd.toNat; omega
  · rw [encode_hashOf_cmd]; omega
  · change 0x06 = c.cmd.toNat; omega

/-- A command holds the operands it takes from its transaction, and the encoder writes nothing for the others
(R45, log entry 6). -/
theorem encode_operands_of_decode {c : Command} {i : Instr} (h : decode c = .instr i) :
    (encode i).seed = (if takesSeed i then c.seed else 0) ∧
    (encode i).payload = (if takesPayload i then c.payload else []) := by
  obtain ⟨-, hrow⟩ := decode_eq_instr_iff.1 h
  rcases hrow with ⟨-, v, -, rfl⟩ | ⟨-, -, rfl⟩ | ⟨-, -, rfl⟩ | ⟨-, -, rfl⟩ | ⟨-, v, -, rfl⟩ | ⟨-, -, rfl⟩
  · cases v <;> exact ⟨rfl, rfl⟩
  · exact ⟨rfl, rfl⟩
  · exact ⟨rfl, rfl⟩
  · exact ⟨rfl, rfl⟩
  · cases v <;> exact ⟨rfl, rfl⟩
  · exact ⟨rfl, rfl⟩

/-- Any transaction with the word of a command and the operands it takes decodes to that command. -/
theorem decode_of_encode_cmd {c : Command} {i : Instr} (hcmd : c.cmd = (encode i).cmd)
    (hseed : takesSeed i = true → c.seed = (encode i).seed)
    (hpayload : takesPayload i = true → c.payload = (encode i).payload) : decode c = .instr i := by
  have hword := congrArg BitVec.toNat hcmd
  rw [decode_eq_instr_iff]
  induction i using instr_cases with
  | init v seed =>
    have hv := variantCode_lt v
    rw [encode_initOf_cmd] at hword
    exact ⟨by omega, .inl ⟨by omega, v, by omega, by rw [hseed (by cases v <;> rfl), encode_initOf_seed]⟩⟩
  | update b =>
    change _ = 0x02 at hword
    exact ⟨by omega, .inr (.inl ⟨by omega, by omega, by rw [hpayload rfl]; rfl⟩)⟩
  | final =>
    change _ = 0x03 at hword
    exact ⟨by omega, .inr (.inr (.inl ⟨by omega, by omega, rfl⟩))⟩
  | reset seed =>
    change _ = 0x04 at hword
    exact ⟨by omega, .inr (.inr (.inr (.inl ⟨by omega, by omega, by rw [hseed rfl]; rfl⟩)))⟩
  | hash v seed b =>
    have hv := variantCode_lt v
    rw [encode_hashOf_cmd] at hword
    exact ⟨by omega, .inr (.inr (.inr (.inr (.inl ⟨by omega, v, by omega, by
      rw [hseed (by cases v <;> rfl), hpayload (by cases v <;> rfl), encode_hashOf_seed,
        encode_hashOf_payload]⟩))))⟩
  | caps =>
    change _ = 0x06 at hword
    exact ⟨by omega, .inr (.inr (.inr (.inr (.inr ⟨by omega, by omega, rfl⟩))))⟩

/-- Settles O1: each word is the encoder's, its operands those the command takes. -/
theorem commandWordsDecode : Obligations.CommandWordsDecode := by
  intro seed b
  refine ⟨?_, ?_, ?_, ?_, ?_, ?_, ?_, ?_, ?_, ?_⟩ <;>
    exact decode_of_encode_cmd rfl (by simp [takesSeed, encode]) (by simp [takesPayload, encode])

/-- Settles O2: the ten rows of the table forwards, and the decoder read backwards. -/
theorem decodeEncodeAgree : Obligations.DecodeEncodeAgree :=
  ⟨fun _ => decode_of_encode_cmd rfl (fun _ => rfl) (fun _ => rfl),
    fun _ _ h => ⟨encode_cmd_of_decode h, encode_operands_of_decode h⟩⟩

/-! ### Which words are reserved (R50) -/

/-- The words of the kind `BadCmd`, by arithmetic: a reserved bit, an unused operation code, or a selector beside
an operation that takes none (R50). -/
def badCmdWord (w : Nat) : Prop :=
  w / 64 ≠ 0 ∨ w % 16 = 0 ∨ 7 ≤ w % 16 ∨
    ((w % 16 = 2 ∨ w % 16 = 3 ∨ w % 16 = 4 ∨ w % 16 = 6) ∧ w / 16 % 4 ≠ 0)

/-- The words of the kind `BadVariant`, by arithmetic: `INIT` or `HASH` with selector 3 (R50, R146). -/
def badVariantWord (w : Nat) : Prop :=
  w / 64 = 0 ∧ (w % 16 = 1 ∨ w % 16 = 5) ∧ w / 16 % 4 = 3

theorem decode_of_badCmdWord {c : Command} (h : badCmdWord c.cmd.toNat) : decode c = .badCmd := by
  rcases h with hrsv | hzero | hseven | ⟨hop, hvar⟩
  · exact decode_of_rsv_ne_zero hrsv
  · exact decode_of_unused_op (.inl hzero)
  · exact decode_of_unused_op (.inr hseven)
  · exact decode_of_stray_variant hop hvar

theorem decode_of_badVariantWord {c : Command} (h : badVariantWord c.cmd.toNat) : decode c = .badVariant :=
  let ⟨hrsv, hop, hvar⟩ := h
  decode_of_selector_three hrsv hop hvar

/-- Every selector but 3 names a variant (R48). -/
theorem exists_variantCode {n : Nat} (h : n < 3) : ∃ v, n = (variantCode v).toNat := by
  obtain rfl | rfl | rfl : n = 0 ∨ n = 1 ∨ n = 2 := by omega
  · exact ⟨.h64, rfl⟩
  · exact ⟨.h128, rfl⟩
  · exact ⟨.h128c, rfl⟩

/-- A word of neither reserved kind is a command. -/
theorem decode_of_legal {c : Command} (hcmd : ¬ badCmdWord c.cmd.toNat)
    (hvariant : ¬ badVariantWord c.cmd.toNat) : ∃ i, decode c = .instr i := by
  simp only [badCmdWord, badVariantWord] at hcmd hvariant
  have hrsv : c.cmd.toNat / 64 = 0 := by omega
  simp only [decode_eq_instr_iff, hrsv, true_and]
  obtain hop | hop | hop | hop | hop | hop : c.cmd.toNat % 16 = 1 ∨ c.cmd.toNat % 16 = 2 ∨ c.cmd.toNat % 16 = 3 ∨
    c.cmd.toNat % 16 = 4 ∨ c.cmd.toNat % 16 = 5 ∨ c.cmd.toNat % 16 = 6 := by omega
  · obtain ⟨v, hv⟩ := exists_variantCode (n := c.cmd.toNat / 16 % 4) (by omega)
    exact ⟨_, .inl ⟨hop, v, hv, rfl⟩⟩
  · exact ⟨_, .inr (.inl ⟨hop, by omega, rfl⟩)⟩
  · exact ⟨_, .inr (.inr (.inl ⟨hop, by omega, rfl⟩))⟩
  · exact ⟨_, .inr (.inr (.inr (.inl ⟨hop, by omega, rfl⟩)))⟩
  · obtain ⟨v, hv⟩ := exists_variantCode (n := c.cmd.toNat / 16 % 4) (by omega)
    exact ⟨_, .inr (.inr (.inr (.inr (.inl ⟨hop, v, hv, rfl⟩))))⟩
  · exact ⟨_, .inr (.inr (.inr (.inr (.inr ⟨hop, by omega, rfl⟩))))⟩

/-- Settles O3: a word is of one reserved kind, of the other, or a command, and each is decoded to an outcome of
its own. -/
theorem reservedWordsClassified : Obligations.ReservedWordsClassified := by
  intro c
  change (decode c = .badCmd ↔ badCmdWord c.cmd.toNat) ∧ (decode c = .badVariant ↔ badVariantWord c.cmd.toNat)
  by_cases hcmd : badCmdWord c.cmd.toNat
  case pos =>
    have hnot : ¬ badVariantWord c.cmd.toNat := by
      simp only [badCmdWord, badVariantWord] at hcmd ⊢
      omega
    simp [decode_of_badCmdWord hcmd, hcmd, hnot]
  case neg =>
    by_cases hvariant : badVariantWord c.cmd.toNat
    case pos => simp [decode_of_badVariantWord hvariant, hcmd, hvariant]
    case neg =>
      obtain ⟨i, hi⟩ := decode_of_legal hcmd hvariant
      simp [hi, hcmd, hvariant]

/-! ### The step on a legal word (R126) -/

/-- A legal command within the bound of R45 is executed. -/
theorem issue_of_instr {c : Command} {i : Instr} {s : State} (hdecode : decode c = .instr i)
    (hlength : i.wellFormed = true) : issue c s = exec i s := by
  simp only [issue, hdecode, hlength, if_true]

theorem step_of_idle {s : State} (hpending : s.pending = []) : step s = .next s := by
  rw [step, takeCommand, hpending]

/-- Settles O5: the step takes the command, the decoder names it, and its payload is within R45's bound. -/
theorem stepRunsDecodedCommand : Obligations.StepRunsDecodedCommand := by
  refine ⟨fun s c rest i hpending hdecode hlength => ?_, fun s => step_of_idle⟩
  rw [step_of_pending hpending, issue_of_instr hdecode (decide_eq_true hlength)]

end Sys2Proof.Machine
end

section
/-! Proofs about bytes and words: the loads and stores of 40_primitives.md section 3, and the bytes of a digest. -/

namespace Sys2Proof.Machine

/-! ### The number of a byte string (R31) -/

theorem leNat_lt (bs : List Byte) : leNat bs < 2 ^ (8 * bs.length) := by
  induction bs with
  | nil => simp [leNat]
  | cons b bs ih =>
    have hb := b.isLt
    have hpow : 2 ^ (8 * (b :: bs).length) = 256 * 2 ^ (8 * bs.length) := by
      rw [List.length_cons, Nat.mul_succ, Nat.pow_add, Nat.mul_comm]
    simp only [leNat]
    omega

/-- The number of a byte string is the sum of its bytes, each in its place. -/
theorem leNat_eq_sum (bs : List Byte) :
    leNat bs = ((List.range bs.length).map fun i => (bs.getD i 0).toNat * 2 ^ (8 * i)).sum := by
  induction bs with
  | nil => rfl
  | cons b bs ih =>
    have hplace (i : Nat) : ((b :: bs).getD (i + 1) 0).toNat * 2 ^ (8 * (i + 1)) =
        256 * ((bs.getD i 0).toNat * 2 ^ (8 * i)) := by
      rw [List.getD_cons_succ, Nat.mul_succ, Nat.pow_add]; ring
    rw [List.length_cons, List.range_succ_eq_map, List.map_cons, List.sum_cons, List.map_map]
    simp only [Function.comp_def, hplace, List.sum_map_mul_left, leNat, ih]
    simp

/-- A load of at most 8 bytes is the number of the bytes loaded: nothing is cut off. -/
theorem loadLE_toNat {s : List Byte} {o w : Nat} (hw : w ≤ 8) :
    (loadLE s o w).toNat = leNat ((s.drop o).take w) := by
  have hlt := leNat_lt ((s.drop o).take w)
  have hlen : ((s.drop o).take w).length ≤ 8 := (List.length_take_le _ _).trans hw
  have hbound : leNat ((s.drop o).take w) < 2 ^ 64 :=
    hlt.trans_le (Nat.pow_le_pow_right (by decide) (by omega))
  rw [loadLE, BitVec.toNat_ofNat, Nat.mod_eq_of_lt hbound]

/-- Settles O8: the load is the number of the `w` bytes from `o` on. -/
theorem loadIsLittleEndianAndZeroExtends : Obligations.LoadIsLittleEndianAndZeroExtends := by
  intro s o w _ hw hfits
  have hlen : ((s.drop o).take w).length = w := by simp; omega
  refine ⟨?_, ?_⟩
  · rw [loadLE_toNat hw, leNat_eq_sum, hlen]
    refine congrArg List.sum (List.map_congr_left fun i hi => ?_)
    have hi : i < w := List.mem_range.1 hi
    simp [List.getD_eq_getElem?_getD, hi]
  · have hlt := leNat_lt ((s.drop o).take w)
    rwa [hlen, ← loadLE_toNat hw] at hlt

/-! ### The bytes of a number (R78) -/

@[simp] theorem storeLE_length (v n : Nat) : (storeLE v n).length = n := by simp [storeLE]

theorem leByte_toNat (v i : Nat) : (leByte v i).toNat = v / 2 ^ (8 * i) % 256 := by
  rw [leByte, BitVec.toNat_ofNat]

theorem storeLE_zero (v : Nat) : storeLE v 0 = [] := rfl

/-- The least significant byte first, then the bytes of the rest. -/
theorem storeLE_succ (v n : Nat) : storeLE v (n + 1) = BitVec.ofNat 8 v :: storeLE (v / 256) n := by
  have hhead : leByte v 0 = BitVec.ofNat 8 v := by rw [leByte, Nat.mul_zero, Nat.pow_zero, Nat.div_one]
  have hshift : leByte v ∘ Nat.succ = leByte (v / 256) := by
    funext i
    rw [Function.comp_apply, leByte, leByte, Nat.div_div_eq_div_mul, Nat.mul_succ, Nat.pow_add, Nat.mul_comm]
  rw [storeLE, List.range_succ_eq_map, List.map_cons, List.map_map, hhead, hshift, storeLE]

theorem leNat_storeLE (v n : Nat) : leNat (storeLE v n) = v % 2 ^ (8 * n) := by
  induction n generalizing v with
  | zero => simp [storeLE_zero, leNat, Nat.mod_one]
  | succ n ih =>
    rw [storeLE_succ, leNat, ih, BitVec.toNat_ofNat, Nat.mul_succ, Nat.add_comm (8 * n), Nat.pow_add]
    exact (Nat.mod_mul).symm

theorem storeLE_leNat (bs : List Byte) : storeLE (leNat bs) bs.length = bs := by
  induction bs with
  | nil => rfl
  | cons b bs ih =>
    have hb := b.isLt
    have hrest : leNat (b :: bs) / 256 = leNat bs := by simp only [leNat]; omega
    have hhead : BitVec.ofNat 8 (leNat (b :: bs)) = b := by
      apply BitVec.eq_of_toNat_eq
      rw [BitVec.toNat_ofNat]
      simp only [leNat]
      omega
    rw [List.length_cons, storeLE_succ, hrest, hhead, ih]

/-- Settles O9: the bytes by their definition, and store and load inverse to each other on 8 bytes. -/
theorem storeIsInverseOfLoad : Obligations.StoreIsInverseOfLoad := by
  refine ⟨fun v n i hi => ⟨storeLE_length v n, ?_⟩, fun w => ?_, fun bs hlen => ?_⟩
  · rw [← leByte_toNat]
    simp [storeLE, List.getD_eq_getElem?_getD, hi]
  · apply BitVec.eq_of_toNat_eq
    rw [loadLE_toNat le_rfl, List.drop_zero, List.take_of_length_le (by simp), leNat_storeLE]
    exact Nat.mod_eq_of_lt w.isLt
  · rw [loadLE_toNat le_rfl, List.drop_zero, List.take_of_length_le (by omega)]
    simpa [hlen] using storeLE_leNat bs

/-! ### The bytes of a digest (R32, R55) -/

/-- The bytes of a number are those of its low part, then those of the rest. -/
theorem storeLE_add (v m n : Nat) : storeLE v (m + n) = storeLE v m ++ storeLE (v / 2 ^ (8 * m)) n := by
  induction m generalizing v with
  | zero => simp [storeLE_zero]
  | succ m ih =>
    have hdiv : v / 256 / 2 ^ (8 * m) = v / 2 ^ (8 * (m + 1)) := by
      rw [Nat.div_div_eq_div_mul, Nat.mul_succ, Nat.pow_add, Nat.mul_comm]
    rw [Nat.succ_add, storeLE_succ, storeLE_succ, ih, List.cons_append, hdiv]

/-- `n` bytes of a number depend on its value modulo `2^(8n)` alone. -/
theorem storeLE_mod (v n : Nat) : storeLE (v % 2 ^ (8 * n)) n = storeLE v n := by
  rw [← leNat_storeLE]
  simpa using storeLE_leNat (storeLE v n)

theorem joinHalves_toNat (l : Lanes2) : (joinHalves l).toNat = l.hi.toNat * 2 ^ 64 + l.lo.toNat := by
  rw [joinHalves, BitVec.toNat_append, Nat.shiftLeft_eq, Nat.mul_comm, Nat.two_pow_add_eq_or_of_lt l.lo.isLt]

/-- The 8 bytes of a 64-bit digest held in the low half of the register are those of the word (R20, R55). -/
theorem storeLE_setWidth (v : Word) : storeLE (v.setWidth 128).toNat 8 = storeLE v.toNat 8 := by
  rw [BitVec.toNat_setWidth, Nat.mod_eq_of_lt (v.isLt.trans (by decide))]

/-- Settles O10: the low half of the register is `lo`, the rest `hi`. -/
theorem digestSerialisation : Obligations.DigestSerialisation := by
  refine ⟨fun l => ?_, storeLE_setWidth⟩
  have hlo := l.lo.isLt
  have hlow : (joinHalves l).toNat % 2 ^ (8 * 8) = l.lo.toNat := by rw [joinHalves_toNat]; omega
  have hhigh : (joinHalves l).toNat / 2 ^ (8 * 8) = l.hi.toNat := by rw [joinHalves_toNat]; omega
  rw [storeLE_add _ 8 8, hhigh, ← storeLE_mod, hlow]

end Sys2Proof.Machine
end

section
/-! Proofs about the mixing primitives of 40_primitives.md (sections 4 to 6) and the steps built of them. -/

namespace Sys2Proof.Machine

/-! ### `mix` in arithmetic (R60 to R62, R65, R68) -/

/-- A right rotation in arithmetic modulo `2^64` (R65). -/
theorem rotr64_toNat (x : Word) (n : Nat) :
    (rotr64 x n).toNat = (x.toNat / 2 ^ (n % 64) + x.toNat * 2 ^ (64 - n % 64)) % 2 ^ 64 := by
  have hx := x.isLt
  simp only [rotr64]
  split
  case isTrue hzero =>
    rw [hzero, Nat.pow_zero, Nat.div_one, Nat.sub_zero]
    omega
  case isFalse =>
    rw [BitVec.toNat_add, BitVec.toNat_ushiftRight, BitVec.toNat_shiftLeft, Nat.shiftRight_eq_div_pow,
      Nat.shiftLeft_eq, Nat.add_mod_mod]

/-- Settles O11: each primitive inside `mix` in its arithmetic form. -/
theorem mixIsModularArithmetic : Obligations.MixIsModularArithmetic := by
  intro p acc w cA cB x q hx hq
  have hproduct : (w * cA).toNat = x := by rw [BitVec.toNat_mul, hx]
  have hrotated : (rotr64 (w * cA) p.rMix).toNat = q := by rw [rotr64_toNat, hproduct, hq]
  rw [mix, mul64, add64, mul64, BitVec.toNat_mul, BitVec.toNat_add, hrotated, Nat.mod_mul_mod]

/-! ### Bijections of 64-bit words

On a finite type an injection is a bijection. Each primitive is injective because it can be undone from its
result: the xor-shift bit by bit from the top, the product by an odd factor modulo `2^64`. -/

theorem bijective_of_injective {f : Word → Word} (h : Function.Injective f) : Function.Bijective f :=
  Finite.injective_iff_bijective.1 h

/-- A xor-shift by `n > 0` is undone from the top: each bit is that of the result, xored with a higher one. -/
theorem xsr_injective {n : Nat} (hn : 1 ≤ n) : Function.Injective fun x : Word => xsr x n := by
  intro x y hxy
  have hbits (i : Nat) : (x.getLsbD i ^^ x.getLsbD (n + i)) = (y.getLsbD i ^^ y.getLsbD (n + i)) := by
    simpa [xsr] using congrArg (fun z : Word => z.getLsbD i) hxy
  have htop (k i : Nat) (hi : 64 - k ≤ i) : x.getLsbD i = y.getLsbD i := by
    induction k generalizing i with
    | zero => rw [BitVec.getLsbD_of_ge x i (by omega), BitVec.getLsbD_of_ge y i (by omega)]
    | succ k ih =>
      have hhigher := ih (n + i) (by omega)
      have hbit := hbits i
      rw [hhigher] at hbit
      exact Bool.xor_left_inj.1 hbit
  exact BitVec.eq_of_getLsbD_eq fun i hi => htop 64 i (by omega)

/-- An odd factor can be cancelled modulo `2^64`. -/
theorem mul64_right_injective {c : Word} (hodd : c.toNat % 2 = 1) : Function.Injective fun x : Word => mul64 x c := by
  intro x y hxy
  have hcoprime : Nat.gcd (2 ^ 64) c.toNat = 1 :=
    Nat.Coprime.pow_left 64 (Nat.coprime_two_left.2 (Nat.odd_iff.2 hodd))
  have hproduct : x.toNat * c.toNat ≡ y.toNat * c.toNat [MOD 2 ^ 64] := by
    simpa [mul64, BitVec.toNat_mul, Nat.ModEq] using congrArg BitVec.toNat hxy
  have hmod : x.toNat ≡ y.toNat [MOD 2 ^ 64] := Nat.ModEq.cancel_right_of_coprime hcoprime hproduct
  exact BitVec.eq_of_toNat_eq (Nat.ModEq.eq_of_lt_of_lt hmod x.isLt y.isLt)

/-- A rotation moves every bit to a place of its own. -/
theorem rotr64_injective (n : Nat) : Function.Injective fun x : Word => rotr64 x n := by
  intro x y hxy
  refine BitVec.eq_of_getLsbD_eq fun i hi => ?_
  have hsource : ((i + (64 - n % 64)) % 64 + n) % 64 = i := by omega
  have hbit := congrArg (fun z : Word => z.getLsbD ((i + (64 - n % 64)) % 64)) hxy
  simp only [getLsbD_rotr64 _ n (Nat.mod_lt _ (by decide : 64 > 0)), hsource] at hbit
  exact hbit

/-- Settles O12: undoing the xor-shift makes it injective. -/
theorem xorShiftIsBijective : Obligations.XorShiftIsBijective :=
  fun _ hn _ => bijective_of_injective (xsr_injective hn)

/-- Settles O13: `mix` is a product by `cB` after a sum, and its word is multiplied by `cA` and rotated before. -/
theorem mixIsBijective : Obligations.MixIsBijective := by
  intro p cA cB hcB
  refine ⟨fun w => bijective_of_injective ?_, fun hcA acc => bijective_of_injective ?_⟩
  · exact (mul64_right_injective hcB).comp (add_left_injective (rotr64 (mul64 w cA) p.rMix))
  · exact (mul64_right_injective hcB).comp
      ((add_right_injective acc).comp ((rotr64_injective p.rMix).comp (mul64_right_injective hcA)))

/-- Settles O14: two xor-shifts around a product. -/
theorem avalancheIsBijective : Obligations.AvalancheIsBijective := by
  intro s1 s2 m hs1 _ hs2 _ hm
  exact bijective_of_injective ((xsr_injective hs2).comp ((mul64_right_injective hm).comp (xsr_injective hs1)))

/-! ### The CRC tail step (R74) -/

/-- Folding a value of the low half of the lane into its high half can be undone: the low half is unchanged. -/
theorem foldHigh_injective (f : Word32 → Word32) :
    Function.Injective fun x : Word => x ^^^ ((f (x.extractLsb' 0 32)).setWidth 64 <<< 32) := by
  intro x y hxy
  have hlow (z : Word) : (z ^^^ ((f (z.extractLsb' 0 32)).setWidth 64 <<< 32)).extractLsb' 0 32 =
      z.extractLsb' 0 32 := by
    refine BitVec.eq_of_getLsbD_eq fun i hi => ?_
    simp [hi]
  have hsame : x.extractLsb' 0 32 = y.extractLsb' 0 32 := by
    rw [← hlow x, ← hlow y]
    exact congrArg (fun z : Word => z.extractLsb' 0 32) hxy
  simpa [hsame] using hxy

/-- The shift of the tail step for a width of the plan is one of the record's. -/
theorem one_le_tailShift {p : Params} (hshifts : ∀ i : Fin 8, 1 ≤ p.tailSh[i] ∧ p.tailSh[i] ≤ 63) {w : Nat}
    (hlow : 1 ≤ w) (hhigh : w ≤ 8) : 1 ≤ tailShift p w := by
  have hindex : w - 1 < 8 := by omega
  rw [tailShift, Vector.getElem?_eq_getElem hindex]
  exact (hshifts ⟨w - 1, hindex⟩).1

/-- Settles O15: the fold into the high half, a product by an odd constant and a xor-shift. -/
theorem crcStepIsBijective : Obligations.CrcStepIsBijective := by
  intro p pathCrc word cB w hshifts hlow hhigh hcB
  exact bijective_of_injective ((xsr_injective (one_le_tailShift hshifts hlow hhigh)).comp
    ((mul64_right_injective hcB).comp (foldHigh_injective fun c => crcMux p pathCrc c word)))

/-! ### The CRC of a word (R72, R73)

The CRC step is linear over xor, and a value whose low bits are 0 only moves down through it. So a difference
`y` of the running value enters the next byte by its low byte and is carried on as `y >>> 8`. -/

theorem crcBit_xor (poly x z : Word32) (hz : z.getLsbD 0 = false) :
    crcBit poly (x ^^^ z) = crcBit poly x ^^^ (z >>> 1) := by
  simp only [crcBit, BitVec.getLsbD_xor, hz, Bool.xor_false, BitVec.ushiftRight_xor_distrib]
  split
  · rw [BitVec.xor_assoc, BitVec.xor_comm (z >>> 1), BitVec.xor_assoc]
  · rfl

theorem crcBits_xor (poly : Word32) (n : Nat) (x z : Word32) (hz : ∀ i < n, z.getLsbD i = false) :
    crcBits poly n (x ^^^ z) = crcBits poly n x ^^^ (z >>> n) := by
  induction n generalizing x z with
  | zero => simp [crcBits]
  | succ n ih =>
    have hshifted : ∀ i < n, (z >>> 1).getLsbD i = false := fun i hi => by
      rw [BitVec.getLsbD_ushiftRight]
      exact hz (1 + i) (by omega)
    rw [crcBits, crcBit_xor poly x z (hz 0 (by omega)), ih _ _ hshifted, ← BitVec.shiftRight_add,
      Nat.add_comm 1 n, crcBits]

/-- A value is its low byte and the rest of it. -/
theorem xor_low_byte (y : Word32) : y = (y.extractLsb' 0 8).setWidth 32 ^^^ (y >>> 8 <<< 8) := by
  refine BitVec.eq_of_getLsbD_eq fun i hi => ?_
  by_cases hlow : i < 8
  · simp [hlow, hi]
  · have hback : 8 + (i - 8) = i := by omega
    simp [hlow, hi, hback]

/-- A difference of the running value enters the byte by its low byte; the rest moves down by 8 bits. -/
theorem crc32U8_xor (p : Params) (c y : Word32) (b : Byte) :
    crc32U8 p (c ^^^ y) b = crc32U8 p c (b ^^^ y.extractLsb' 0 8) ^^^ (y >>> 8) := by
  have hsplit : c ^^^ y ^^^ b.setWidth 32 =
      c ^^^ (b ^^^ y.extractLsb' 0 8).setWidth 32 ^^^ (y >>> 8 <<< 8) := by
    conv_lhs => rw [xor_low_byte y]
    rw [BitVec.setWidth_xor]
    ac_rfl
  have hclear : ∀ i < 8, (y >>> 8 <<< 8).getLsbD i = false := fun i hi => by simp [hi]
  have hmoved : y >>> 8 <<< 8 >>> 8 = y >>> 8 := by
    refine BitVec.eq_of_getLsbD_eq fun i hi => ?_
    by_cases hin : 8 + i < 32
    · simp [hin]
    · simp [hin, BitVec.getLsbD_of_ge y (8 + i) (by omega)]
  rw [crc32U8, hsplit, crcBits_xor _ _ _ _ hclear, hmoved, crc32U8]

/-- The CRC of the first `k` bytes of a word from the running value `c`: that of the word with `c` xored into
its low half from 0, and what is left of `c`. -/
theorem crc_bytes_absorb (p : Params) (c : Word32) (d : Word) (k : Nat) :
    (List.range k).foldl (fun a i => crc32U8 p a (d.extractLsb' (8 * i) 8)) c =
      (List.range k).foldl (fun a i => crc32U8 p a ((d ^^^ c.setWidth 64).extractLsb' (8 * i) 8)) 0 ^^^
        (c >>> (8 * k)) := by
  induction k with
  | zero => simp
  | succ k ih =>
    have hbyte : (d ^^^ c.setWidth 64).extractLsb' (8 * k) 8 =
        d.extractLsb' (8 * k) 8 ^^^ (c >>> (8 * k)).extractLsb' 0 8 := by
      refine BitVec.eq_of_getLsbD_eq fun i hi => ?_
      have hinside : c.getLsbD (8 * k + i) = true → 8 * k + i < 64 :=
        fun hbit => (BitVec.lt_of_getLsbD hbit).trans (by decide)
      simpa [hi] using hinside
    rw [List.range_succ, List.foldl_append, List.foldl_append, ih]
    simp only [List.foldl_cons, List.foldl_nil]
    rw [crc32U8_xor, hbyte, ← BitVec.shiftRight_add, Nat.mul_succ]

/-- Settles O16: after 8 bytes nothing is left of the running value. -/
theorem crcOfWordAbsorbsRunningValue : Obligations.CrcOfWordAbsorbsRunningValue := by
  intro p c d
  have hgone : c >>> (8 * 8) = 0 := BitVec.ushiftRight_eq_zero (by decide)
  rw [crc32U64, crc_bytes_absorb, hgone, crc32U64]
  exact BitVec.xor_zero

/-! ### The tail plan and the lanes (R71, R81, R83) -/

/-- Settles O17: the first clause by evaluation of the 32 plans; two lengths with one plan cover the same
indices. -/
theorem tailPlanCoversResidual : Obligations.TailPlanCoversResidual := by
  have hcover : ∀ r : Fin 32,
      ((plan r.val).flatMap fun l => (List.range l.width).map (l.off + ·)) = List.range r.val ∧
      ∀ l ∈ plan r.val, 1 ≤ l.width ∧ l.width ≤ 8 ∧ l.off = 8 * l.j.val := by decide
  refine ⟨hcover, fun r r' hplan => Fin.ext ?_⟩
  have hrange : List.range r.val = List.range r'.val := by rw [← (hcover r).1, hplan, (hcover r').1]
  simpa using congrArg List.length hrange

/-- Settles O18: the four equations of R82, lane by lane. -/
theorem lanesIndependentInBlock : Obligations.LanesIndependentInBlock := by
  intro p l m a b
  refine ⟨fun hlane hword => ?_, fun hlane hword => ?_, fun hlane hword => ?_, fun hlane hword => ?_⟩ <;>
    simp only [block64, hlane, hword]

/-- At seed 0 a lane starts as the product of its two constants (R81, R94, R106). -/
theorem seedLane_zero (add mul : Word) : mul64 (add64 0 add) mul = add * mul := by
  rw [mul64, add64, zero_add]

/-- Settles O19: the products that R9 asks to differ are the lanes at seed 0. -/
theorem lanesDivergeAtSeedZero : Obligations.LanesDivergeAtSeedZero := by
  rintro p ⟨-, ⟨h64, h128, h128c⟩, -⟩
  refine ⟨?_, ?_, ?_⟩
  · have h01 := h64 0 1 (by decide)
    have h02 := h64 0 2 (by decide)
    have h03 := h64 0 3 (by decide)
    have h12 := h64 1 2 (by decide)
    have h13 := h64 1 3 (by decide)
    have h23 := h64 2 3 (by decide)
    simp only [seed64, seedLane_zero]
    simp_all
  · simpa only [seed128, seedPair, seedLane_zero] using h128
  · simpa only [seed128c, seedPair, seedLane_zero] using h128c

end Sys2Proof.Machine
end

section
/-! The three engines as one: lanes, seed step, block step and digest by variant, and an engine in the middle of a
stream. The later proofs speak of a variant and do not repeat themselves for each of the three. -/

namespace Sys2Proof.Machine

/-! ### Lanes by variant (R14, R15) -/

/-- The lanes of a variant: four for `H64`, two for the others. -/
@[reducible] def LanesOf : Variant → Type
  | .h64 => Lanes4
  | .h128 => Lanes2
  | .h128c => Lanes2

/-- The lanes a variant's engine holds. -/
def readLanes (v : Variant) (e : Engine) : Except Fault (LanesOf v) :=
  match v with
  | .h64 => readLanes4 e
  | .h128 => readLanes2 e
  | .h128c => readLanes2 e

/-- The write of a variant's lanes. -/
def putLanes (v : Variant) (e : Engine) (l : LanesOf v) : Engine :=
  match v with
  | .h64 => putLanes4 e l
  | .h128 => putLanes2 e l
  | .h128c => putLanes2 e l

/-- The lanes after a variant's seed step. -/
def seedLanes (p : Params) (v : Variant) (seed : Word) : LanesOf v :=
  match v with
  | .h64 => seed64 p seed
  | .h128 => seed128 p seed
  | .h128c => seed128c p seed

/-- The lanes after a variant's block step. -/
def blockLanes (p : Params) (v : Variant) (l : LanesOf v) (b : List Byte) : LanesOf v :=
  match v with
  | .h64 => block64 p l b
  | .h128 => block128 p l b
  | .h128c => block128c p l b

/-- A variant's digest of lanes and residual bytes, as the register holds it; `H128C`'s is that of either path
(R113). -/
def digestOf (p : Params) (v : Variant) (l : LanesOf v) (res : List Byte) : Word128 :=
  match v with
  | .h64 => (final64 p l res).setWidth 128
  | .h128 => final128 p l res
  | .h128c => final128c p false l res

section
variable (v : Variant) (e : Engine) (l : LanesOf v)

@[simp] theorem putLanes_variant : (putLanes v e l).variant = e.variant := by cases v <;> rfl
@[simp] theorem putLanes_phase : (putLanes v e l).phase = e.phase := by cases v <;> rfl
@[simp] theorem putLanes_buf : (putLanes v e l).buf = e.buf := by cases v <;> rfl
@[simp] theorem putLanes_len : (putLanes v e l).len = e.len := by cases v <;> rfl
@[simp] theorem putLanes_path : (putLanes v e l).path = e.path := by cases v <;> rfl
@[simp] theorem putLanes_digest : (putLanes v e l).digest = e.digest := by cases v <;> rfl

end

theorem readLanes_putLanes (v : Variant) (e : Engine) (l : LanesOf v) : readLanes v (putLanes v e l) = .ok l := by
  cases v <;> rfl

theorem putLanes_putLanes (v : Variant) (e : Engine) (l m : LanesOf v) :
    putLanes v (putLanes v e l) m = putLanes v e m := by
  cases v <;> rfl

/-- An engine holds the lanes of `H64` exactly if its four lane fields do. -/
theorem putLanes_h64_eq_self_iff {e : Engine} {l : Lanes4} :
    putLanes .h64 e l = e ↔ e.l0 = some l.v0 ∧ e.l1 = some l.v1 ∧ e.l2 = some l.v2 ∧ e.l3 = some l.v3 := by
  cases e
  simp [putLanes, putLanes4, eq_comm]

/-- An engine holds the lanes of a 128-bit variant exactly if its first two lane fields do. -/
theorem putLanes_two_eq_self_iff {e : Engine} {l : Lanes2} :
    putLanes2 e l = e ↔ e.l0 = some l.lo ∧ e.l1 = some l.hi := by
  cases e
  simp [putLanes2, eq_comm]

/-- The block step of a variant on the lanes held. -/
theorem blockStep_putLanes (p : Params) (v : Variant) (b : List Byte) (e : Engine) (l : LanesOf v) :
    blockStep p v b (putLanes v e l) = .ok (putLanes v e (blockLanes p v l b)) := by
  cases v <;> rfl

/-! ### An engine in the middle of a stream (R17, R18) -/

/-- The engine is of variant `v`, holds the lanes `l` and the length `n`, and has buffered exactly `res`, as many
bytes as `n` says. -/
structure Engine.Streams (e : Engine) (v : Variant) (l : LanesOf v) (n : Word) (res : List Byte) : Prop where
  variant : e.variant = some v
  lanes : putLanes v e l = e
  len : e.len = some n
  buf : e.buf = indexed res
  length : res.length = fill n

/-- The engine with the lanes, the length and the buffer of a stream written to it. -/
def streamEngine (e : Engine) (v : Variant) (l : LanesOf v) (n : Word) (res : List Byte) : Engine :=
  { putLanes v e l with len := some n, buf := indexed res }

section
variable (e : Engine) (v : Variant) (l : LanesOf v) (n : Word) (res : List Byte)

@[simp] theorem streamEngine_variant : (streamEngine e v l n res).variant = e.variant := putLanes_variant v e l
@[simp] theorem streamEngine_phase : (streamEngine e v l n res).phase = e.phase := putLanes_phase v e l
@[simp] theorem streamEngine_path : (streamEngine e v l n res).path = e.path := putLanes_path v e l
@[simp] theorem streamEngine_digest : (streamEngine e v l n res).digest = e.digest := putLanes_digest v e l
@[simp] theorem streamEngine_len : (streamEngine e v l n res).len = some n := rfl
@[simp] theorem streamEngine_buf : (streamEngine e v l n res).buf = indexed res := rfl

end

variable {p : Params} {e : Engine} {v : Variant} {l : LanesOf v} {n : Word} {res old : List Byte}

theorem streamEngine_streams (hv : e.variant = some v) (hlen : res.length = fill n) :
    (streamEngine e v l n res).Streams v l n res where
  variant := by simpa using hv
  lanes := by cases v <;> rfl
  len := rfl
  buf := rfl
  length := hlen

/-- Writing a stream over a stream is writing the second. -/
theorem streamEngine_streamEngine (l' : LanesOf v) (n' : Word) (res' : List Byte) :
    streamEngine (streamEngine e v l n res) v l' n' res' = streamEngine e v l' n' res' := by
  cases v <;> rfl

/-- A stream written to an engine that already holds it changes nothing. -/
theorem Engine.Streams.streamEngine_eq (h : e.Streams v l n res) : streamEngine e v l n res = e := by
  obtain ⟨-, hlanes, hlen, hbuf, -⟩ := h
  rw [streamEngine, hlanes, ← hlen, ← hbuf]

/-- What a stream holds does not depend on phase, path and digest. -/
theorem Engine.Streams.of_other_fields (h : e.Streams v l n res) (ph : Phase) (path : Option Path)
    (d : Option Word128) : Engine.Streams { e with phase := ph, path := path, digest := d } v l n res where
  variant := h.variant
  lanes := by
    have hcommute : putLanes v { e with phase := ph, path := path, digest := d } l =
        { putLanes v e l with phase := ph, path := path, digest := d } := by cases v <;> rfl
    rw [hcommute, h.lanes]
  len := h.len
  buf := h.buf
  length := h.length

/-! ### Full blocks and the rest (R83, R88, R133) -/

/-- The lanes after the full blocks of a string. -/
def mixBlocks {α : Type} (f : α → List Byte → α) (l : α) (s : List Byte) : α :=
  blocks f (s.length / blockBytes) l s

section
variable {α : Type} {f : α → List Byte → α} {lanes : α} {s blk : List Byte}

theorem mixBlocks_of_short (hs : s.length < blockBytes) : mixBlocks f lanes s = lanes := by
  rw [mixBlocks, Nat.div_eq_of_lt hs, blocks]

theorem residue_of_short (hs : s.length < blockBytes) : residue s = s := by
  rw [residue, Nat.div_eq_of_lt hs, Nat.mul_zero, List.drop_zero]

theorem block_count (hblk : blk.length = blockBytes) :
    (blk ++ s).length / blockBytes = s.length / blockBytes + 1 := by
  rw [List.length_append, hblk, Nat.add_div_left _ (by decide)]

theorem mixBlocks_block (hblk : blk.length = blockBytes) :
    mixBlocks f lanes (blk ++ s) = mixBlocks f (f lanes blk) s := by
  rw [mixBlocks, block_count hblk, blocks, List.take_left' hblk, List.drop_left' hblk, mixBlocks]

theorem residue_block (hblk : blk.length = blockBytes) : residue (blk ++ s) = residue s := by
  have hskip : blockBytes * (s.length / blockBytes + 1) = blk.length + blockBytes * (s.length / blockBytes) := by
    rw [hblk, Nat.mul_succ, Nat.add_comm]
  rw [residue, block_count hblk, hskip, List.drop_length_add_append, residue]

theorem residue_length (s : List Byte) : (residue s).length = s.length % blockBytes := by
  rw [residue, List.length_drop, Nat.mod_def]

end

/-! ### Absorbing in the block-wise form (R132, R133) -/

theorem fill_lt (n : Word) : fill n < blockBytes := Nat.mod_lt _ (by decide)

/-- The fill position after a byte. -/
theorem fill_add_one (n : Word) : fill (n + 1) = if fill n = bufBytes then 0 else fill n + 1 := by
  have hn := n.isLt
  have hsum : (n + 1).toNat = (n.toNat + 1) % 2 ^ 64 := BitVec.toNat_add n 1
  by_cases hfull : fill n = bufBytes
  · rw [if_pos hfull]
    simp only [fill, hsum, blockBytes, bufBytes] at hfull ⊢
    omega
  · rw [if_neg hfull]
    simp only [fill, hsum, blockBytes, bufBytes] at hfull ⊢
    omega

/-- The fill position after a string. -/
theorem fill_add_length (n : Word) (c : List Byte) :
    fill (n + BitVec.ofNat 64 c.length) = (fill n + c.length) % blockBytes := by
  simp only [fill, BitVec.toNat_add, BitVec.toNat_ofNat, blockBytes]
  omega

/-- At most 31 bytes are buffered. -/
theorem Engine.Streams.fill_le (h : e.Streams v l n old) : old.length ≤ bufBytes :=
  Nat.le_of_lt_succ (h.length ▸ fill_lt n)

/-- One byte below position 31 is buffered. -/
theorem absorb_of_room (h : e.Streams v l n old) (hroom : old.length ≠ bufBytes) (b : Byte) :
    absorb p b e = .ok (streamEngine e v l (n + 1) (old ++ [b])) := by
  have hfill : fill n < bufBytes := Nat.lt_of_le_of_ne (h.length ▸ h.fill_le) (h.length ▸ hroom)
  refine absorb_ok_iff.2 ⟨v, n, h.variant, h.len, .inr ⟨hfill.ne, indexed (old ++ [b]), ?_, ?_⟩⟩
  · exact memWrite_ok_iff.2 ⟨hfill, by rw [h.buf, ← h.length, write_indexed]⟩
  · rw [streamEngine, h.lanes, add64]

/-- The byte at position 31 completes a block, which is mixed at once. -/
theorem absorb_of_full (h : e.Streams v l n old) (hfull : old.length = bufBytes) (b : Byte) :
    absorb p b e = .ok (streamEngine e v (blockLanes p v l (old ++ [b])) (n + 1) []) := by
  refine absorb_ok_iff.2 ⟨v, n, h.variant, h.len, .inl ⟨by rw [← h.length, hfull], old,
    putLanes v e (blockLanes p v l (old ++ [b])), ?_, ?_, ?_⟩⟩
  · rw [h.buf, memBytes_indexed old 0 bufBytes (by omega) (by decide), ← hfull, List.drop_zero, List.take_length]
  · rw [← blockStep_putLanes p v _ e l, h.lanes]
  · rw [streamEngine, add64, indexed_nil]

/-- Absorbing a chunk: the full blocks of the buffered bytes followed by the chunk are mixed, the rest is
buffered. By induction on the chunk, each byte by one of the two lemmas above. -/
theorem absorbAll_of_streams (h : e.Streams v l n old) (c : List Byte) :
    absorbAll p c e = .ok (streamEngine e v (mixBlocks (blockLanes p v) l (old ++ c))
      (n + BitVec.ofNat 64 c.length) (residue (old ++ c))) := by
  have hshort : old.length < blockBytes := h.length ▸ fill_lt n
  induction c generalizing e l n old with
  | nil =>
    rw [List.append_nil, mixBlocks_of_short hshort, residue_of_short hshort]
    simpa using h.streamEngine_eq.symm
  | cons b bs ih =>
    have hcount : n + BitVec.ofNat 64 (b :: bs).length = n + 1 + BitVec.ofNat 64 bs.length := by
      rw [List.length_cons, Nat.add_comm, BitVec.ofNat_add, ← BitVec.add_assoc]
      rfl
    have hsplit : old ++ b :: bs = (old ++ [b]) ++ bs := by simp
    rw [hcount, hsplit]
    by_cases hfull : old.length = bufBytes
    · have hblk : (old ++ [b]).length = blockBytes := by simp [hfull]
      have hnext : (streamEngine e v (blockLanes p v l (old ++ [b])) (n + 1) []).Streams v _ (n + 1) [] :=
        streamEngine_streams h.variant (by rw [fill_add_one, ← h.length, if_pos hfull, List.length_nil])
      refine absorbAll_cons_ok_iff.2 ⟨_, absorb_of_full h hfull b, ?_⟩
      rw [ih hnext (by decide), streamEngine_streamEngine, List.nil_append, mixBlocks_block hblk,
        residue_block hblk]
    · have hnext : (streamEngine e v l (n + 1) (old ++ [b])).Streams v l (n + 1) (old ++ [b]) :=
        streamEngine_streams h.variant (by
          rw [fill_add_one, ← h.length, if_neg hfull, List.length_append, List.length_singleton])
      have hlen : (old ++ [b]).length < blockBytes := hnext.length ▸ fill_lt (n + 1)
      refine absorbAll_cons_ok_iff.2 ⟨_, absorb_of_room h hfull b, ?_⟩
      rw [ih hnext hlen, streamEngine_streamEngine]

/-- The engine after a chunk is again in the middle of a stream. -/
theorem Engine.Streams.absorbed (h : e.Streams v l n old) (c : List Byte) (m : LanesOf v) :
    (streamEngine e v m (n + BitVec.ofNat 64 c.length) (residue (old ++ c))).Streams v m
      (n + BitVec.ofNat 64 c.length) (residue (old ++ c)) :=
  streamEngine_streams h.variant (by rw [residue_length, List.length_append, h.length, fill_add_length])

/-! ### Finalisation -/

/-- The digest of an engine in the middle of a stream; only `H128C` reads its path, which does not matter. -/
theorem finalDigest_of_streams (h : e.Streams v l n res) (hpath : v = .h128c → e.path.isSome = true) :
    finalDigest p e = .ok (digestOf p v l res) := by
  have hbound : 0 + res.length ≤ bufBytes := by simpa using h.fill_le
  have hres : residual e = .ok res := residual_ok_iff.2 ⟨n, h.len, by
    rw [h.buf, ← h.length, memBytes_indexed res 0 _ (Nat.zero_add _).le hbound, List.drop_zero, List.take_length]⟩
  have hread : readLanes v e = .ok l := by rw [← h.lanes, readLanes_putLanes]
  refine finalDigest_ok_iff.2 ⟨res, hres, ?_⟩
  cases v
  case h64 => exact .inl ⟨h.variant, l, hread, rfl⟩
  case h128 => exact .inr (.inl ⟨h.variant, l, hread, rfl⟩)
  case h128c =>
    obtain ⟨path, hsome⟩ := Option.isSome_iff_exists.1 (hpath rfl)
    exact .inr (.inr ⟨h.variant, path, l, hsome, hread, (final128c_path p path.crc l res).symm⟩)

/-- Finalisation reads neither the phase nor the digest. -/
theorem finalDigest_of_finished (p : Params) (e : Engine) (ph : Phase) (d : Option Word128) :
    finalDigest p { e with phase := ph, digest := d } = finalDigest p e := rfl

/-! ### Construction and reseeding (R128 to R130, R135) -/

/-- The engine of variant `v` that a construction or a reseeding leaves on a path. -/
def freshEngine (p : Params) (v : Variant) (seed : Word) (path : Option Path) : Engine :=
  putLanes v { Engine.reset with variant := some v, phase := .empty, len := some 0, path := path }
    (seedLanes p v seed)

/-- The path that a construction latches (R122). -/
def capsPath (c : Caps) : Path := { simd := c.simd, crc := c.crc }

section
variable (p : Params) (v : Variant) (seed : Word) (path : Option Path)

@[simp] theorem freshEngine_variant : (freshEngine p v seed path).variant = some v := putLanes_variant ..
@[simp] theorem freshEngine_phase : (freshEngine p v seed path).phase = .empty := putLanes_phase ..
@[simp] theorem freshEngine_path : (freshEngine p v seed path).path = path := putLanes_path ..
@[simp] theorem freshEngine_digest : (freshEngine p v seed path).digest = none := putLanes_digest ..
@[simp] theorem freshEngine_len : (freshEngine p v seed path).len = some 0 := putLanes_len ..
@[simp] theorem freshEngine_buf : (freshEngine p v seed path).buf = [] := putLanes_buf ..

theorem freshEngine_streams : (freshEngine p v seed path).Streams v (seedLanes p v seed) 0 [] where
  variant := freshEngine_variant p v seed path
  lanes := putLanes_putLanes ..
  len := freshEngine_len p v seed path
  buf := freshEngine_buf p v seed path
  length := rfl

/-- `L[2]` and `L[3]` of a fresh 128-bit engine hold no value (R15). -/
theorem freshEngine_upper_lanes (hv : v ≠ .h64) :
    (freshEngine p v seed path).l2 = none ∧ (freshEngine p v seed path).l3 = none := by
  cases v
  · exact absurd rfl hv
  · exact ⟨rfl, rfl⟩
  · exact ⟨rfl, rfl⟩

/-- The seed step, whatever engine it runs on, with the other fields as construction and reseeding write them. -/
theorem seedStep_eq_freshEngine (e : Engine) :
    { seedStep p v seed e with
      variant := some v, path := path, buf := [], digest := none, phase := .empty } =
      freshEngine p v seed path := by
  cases v <;> rfl

end

theorem construct_of_capsAre {s : State} {c : Caps} (hcaps : s.capsAre c) (v : Variant) (seed : Word) :
    construct v seed s = .ok { s with
      dispatcher := { capsValid := true, caps := some c }
      engine := freshEngine s.params v seed (some (capsPath c)) } := by
  have hdetect := detect_of_capsAre hcaps
  refine construct_ok_iff.2 ⟨c, by rw [hdetect], ?_⟩
  rw [hdetect, seedStep_eq_freshEngine, capsPath]

theorem reseed_of_variant {s : State} (hv : s.engine.variant = some v) (seed : Word) :
    reseed seed s = .ok { s with engine := freshEngine s.params v seed s.engine.path } := by
  refine reseed_ok_iff.2 ⟨v, hv, ?_⟩
  rw [← seedStep_eq_freshEngine s.params v seed s.engine.path s.engine, ← hv]
  cases v <;> rfl

end Sys2Proof.Machine
end

section
/-! What each command does, once for all variants, and the statements about whole next states (45_commands.md
sections 2 to 7). -/

namespace Sys2Proof.Machine

variable {s : State} {c : Caps} {v : Variant} {l : LanesOf v} {n : Word} {res old : List Byte}

/-! ### The accepted commands -/

/-- `INIT` and `HASH` of a variant, by the shared operations. -/
theorem exec_initOf (v : Variant) (seed : Word) (s : State) :
    exec (initOf v seed) s = answerPlain (construct v seed s) := by
  cases v <;> rfl

theorem exec_hashOf (v : Variant) (seed : Word) (b : List Byte) (s : State) :
    exec (hashOf v seed b) s = answerDigest (oneShot v seed b s) := by
  cases v <;> rfl

/-- `INIT` (R128 to R130): a fresh engine on the path detected, in every phase. -/
theorem exec_initOf_of_capsAre (hcaps : s.capsAre c) (v : Variant) (seed : Word) :
    exec (initOf v seed) s = .next (respond { status := .ok, value := none } { s with
      dispatcher := { capsValid := true, caps := some c }
      engine := freshEngine s.params v seed (some (capsPath c)) }) := by
  rw [exec_initOf]
  exact answerPlain_next_iff.2 ⟨_, construct_of_capsAre hcaps v seed, rfl⟩

/-- `RESET` (R135): a fresh engine of the variant held, on the path held. -/
theorem exec_reset_of_variant (hphase : s.engine.phase ≠ .unconf) (hv : s.engine.variant = some v)
    (seed : Word) :
    exec (.reset seed) s = .next (respond { status := .ok, value := none } { s with
      engine := freshEngine s.params v seed s.engine.path }) :=
  execReset_next_iff.2 (.inl ⟨hphase, _, reseed_of_variant hv seed, rfl⟩)

/-- Feeding a chunk, in the block-wise form (R133). -/
theorem feed_of_streams (h : s.engine.Streams v l n old) (b : List Byte) :
    feed b s = .ok { s with
      engine := { streamEngine s.engine v (mixBlocks (blockLanes s.params v) l (old ++ b))
        (n + BitVec.ofNat 64 b.length) (residue (old ++ b)) with phase := .accum } } :=
  feed_ok_iff.2 ⟨_, absorbAll_of_streams h b, rfl⟩

theorem updateStatus_of_fed (hphase : s.engine.phase = .empty ∨ s.engine.phase = .accum) :
    updateStatus s.engine.phase = .ok := by
  rcases hphase with hphase | hphase <;> rw [hphase, updateStatus]

/-- `UPDATE` in `EMPTY` and `ACCUM` (R131). -/
theorem exec_update_of_streams (hphase : s.engine.phase = .empty ∨ s.engine.phase = .accum)
    (h : s.engine.Streams v l n old) (b : List Byte) :
    exec (.update b) s = .next (respond { status := .ok, value := none } { s with
      engine := { streamEngine s.engine v (mixBlocks (blockLanes s.params v) l (old ++ b))
        (n + BitVec.ofNat 64 b.length) (residue (old ++ b)) with phase := .accum } }) :=
  execUpdate_next_iff.2 (.inl ⟨updateStatus_of_fed hphase, _, feed_of_streams h b, rfl⟩)

/-- Finalisation writes digest and phase (R20, R134). -/
theorem finish_of_streams (h : s.engine.Streams v l n res) (hpath : v = .h128c → s.engine.path.isSome = true) :
    finish s = .ok { s with
      engine := { s.engine with phase := .final, digest := some (digestOf s.params v l res) } } :=
  finish_ok_iff.2 ⟨_, finalDigest_of_streams h hpath, rfl⟩

/-- `FINAL` in `EMPTY` and `ACCUM` (R134). -/
theorem exec_final_of_streams (hphase : s.engine.phase = .empty ∨ s.engine.phase = .accum)
    (h : s.engine.Streams v l n res) (hpath : v = .h128c → s.engine.path.isSome = true) :
    exec .final s = .next (respond
      { status := .ok, value := some (.digest (digestValue v (digestOf s.params v l res))) } { s with
      engine := { s.engine with phase := .final, digest := some (digestOf s.params v l res) } }) :=
  execFinal_next_iff.2 (.inl ⟨hphase, _, _, finish_of_streams h hpath,
    heldDigest_ok_iff.2 ⟨v, _, h.variant, rfl, rfl⟩, rfl⟩)

/-- The digest of a whole string (R88, R101, R116). -/
def hashDigest (p : Params) (v : Variant) (seed : Word) (b : List Byte) : Word128 :=
  digestOf p v (mixBlocks (blockLanes p v) (seedLanes p v seed) b) (residue b)

/-- The engine that one-shot hashing leaves: that of the stream of the string, finalised (R136). -/
def hashedEngine (p : Params) (v : Variant) (seed : Word) (b : List Byte) (path : Option Path) : Engine :=
  { streamEngine (freshEngine p v seed path) v (mixBlocks (blockLanes p v) (seedLanes p v seed) b)
      (BitVec.ofNat 64 b.length) (residue b) with
    phase := .final, digest := some (hashDigest p v seed b) }

theorem hashedEngine_streams (p : Params) (v : Variant) (seed : Word) (b : List Byte) (path : Option Path) :
    (hashedEngine p v seed b path).Streams v (mixBlocks (blockLanes p v) (seedLanes p v seed) b)
      (BitVec.ofNat 64 b.length) (residue b) := by
  have hfed := (freshEngine_streams p v seed path).absorbed b (mixBlocks (blockLanes p v) (seedLanes p v seed) b)
  rw [List.nil_append, zero_add] at hfed
  exact hfed.of_other_fields .final _ _

/-- Construction, feeding and finalisation in one step (R136). -/
theorem oneShot_of_capsAre (hcaps : s.capsAre c) (v : Variant) (seed : Word) (b : List Byte) :
    oneShot v seed b s = .ok { s with
      dispatcher := { capsValid := true, caps := some c }
      engine := hashedEngine s.params v seed b (some (capsPath c)) } := by
  have hfresh := freshEngine_streams s.params v seed (some (capsPath c))
  have hfed := hfresh.absorbed b (mixBlocks (blockLanes s.params v) (seedLanes s.params v seed) b)
  have hfeed := feed_of_streams (s := { s with
    dispatcher := { capsValid := true, caps := some c }
    engine := freshEngine s.params v seed (some (capsPath c)) }) hfresh b
  rw [List.nil_append, zero_add] at hfed hfeed
  exact oneShot_ok_iff.2 ⟨_, _, construct_of_capsAre hcaps v seed, hfeed,
    finish_of_streams (hfed.of_other_fields .accum _ _) fun _ => by simp⟩

/-- `HASH` (R136 to R138), in every phase. -/
theorem exec_hashOf_of_capsAre (hcaps : s.capsAre c) (v : Variant) (seed : Word) (b : List Byte) :
    exec (hashOf v seed b) s = .next (respond
      { status := .ok, value := some (.digest (digestValue v (hashDigest s.params v seed b))) } { s with
      dispatcher := { capsValid := true, caps := some c }
      engine := hashedEngine s.params v seed b (some (capsPath c)) }) := by
  rw [exec_hashOf]
  refine answerDigest_next_iff.2 ⟨_, _, oneShot_of_capsAre hcaps v seed b, ?_, rfl⟩
  exact heldDigest_ok_iff.2 ⟨v, _, (hashedEngine_streams ..).variant, rfl, rfl⟩

/-- `CAPS` (R139), in every phase. -/
theorem exec_caps_of_capsAre (hcaps : s.capsAre c) :
    exec .caps s = .next (respond { status := .ok, value := some (.caps (capsBits c)) }
      { s with dispatcher := { capsValid := true, caps := some c } }) := by
  have hdetect := detect_of_capsAre hcaps
  refine execCaps_next_iff.2 ⟨c, by rw [hdetect], ?_⟩
  rw [hdetect]

/-! ### The refused commands (R143) -/

theorem exec_update_of_final (hphase : s.engine.phase = .final) (b : List Byte) :
    exec (.update b) s = .next (misuse .errFinalized none s) := by
  have hstatus : updateStatus s.engine.phase = .errFinalized := by rw [hphase, updateStatus]
  exact execUpdate_next_iff.2 (.inr ⟨by simp [hstatus], by rw [hstatus]⟩)

/-- Settles O42: the refusal looks at the phase before any byte. -/
theorem updateAfterFinalRefused : Obligations.UpdateAfterFinalRefused :=
  fun b _ hphase => exec_update_of_final hphase b

/-! ### Construction and reuse -/

/-- Settles O22: the fresh engine of `H128C`, its lanes by R106. -/
theorem initH128CEffect : Obligations.InitH128CEffect := by
  intro seed s c hcaps
  exact ⟨fun b => decode_init (by decide) (by decide) seed b, exec_initOf_of_capsAre hcaps .h128c seed⟩

/-- A fresh engine of the variant and on the path held is the engine held with the fields of R135 written. -/
theorem freshEngine_of_variant (p : Params) (seed : Word) {e : Engine} (hv : e.variant = some v) :
    freshEngine p v seed e.path =
      { seedStep p v seed e with phase := .empty, len := some 0, buf := [], digest := none } := by
  rw [← seedStep_eq_freshEngine p v seed e.path e, ← hv]
  cases v <;> rfl

/-- Settles O23: a fresh engine of the variant held keeps variant and path, with the lanes of the seed step. -/
theorem resetEffect : Obligations.ResetEffect := by
  intro seed s hphase
  refine ⟨fun hv => ?_, fun hv => ?_, fun hv => ?_⟩ <;>
    rw [exec_reset_of_variant hphase hv seed, freshEngine_of_variant s.params seed hv] <;> rfl

/-- Settles O24: both engines are fresh ones, and on a valid state the path held is the one `INIT` latches. -/
theorem resetGivesAFreshEngine : Obligations.ResetGivesAFreshEngine := by
  intro seed v s u hs hu hparams hprobe hphase hv
  obtain ⟨-, hcaps, hlatched⟩ := hs
  obtain ⟨hran, hpath⟩ := hlatched hphase
  have hdispatcher : s.dispatcher = { capsValid := true, caps := some (probedCaps s.probe) } := by
    rw [← detect_of_valid hcaps, (detect_eq s.probe s.dispatcher).1 hran]
  refine ⟨_, _, exec_reset_of_variant hphase hv seed, exec_initOf_of_capsAre (capsAre_of_valid hu) v seed, ?_, ?_⟩
  · rw [respond_engine, respond_engine, hparams, hpath, capsPath, hprobe]
  · rw [respond_dispatcher, respond_dispatcher, hdispatcher, hprobe]

/-! ### Feeding and finalisation -/

/-- The premises of R133 and R134 on an `H64` engine say that it is in the middle of a stream. -/
theorem streams_h64 {e : Engine} {l : Lanes4} (hv : e.variant = some .h64) (hlen : e.len = some n)
    (h0 : e.l0 = some l.v0) (h1 : e.l1 = some l.v1) (h2 : e.l2 = some l.v2) (h3 : e.l3 = some l.v3)
    (hbuf : e.buf = indexed res) (hres : res.length = n.toNat % 32) : e.Streams .h64 l n res :=
  ⟨hv, putLanes_h64_eq_self_iff.2 ⟨h0, h1, h2, h3⟩, hlen, hbuf, hres⟩

/-- The same on an `H128` engine. -/
theorem streams_h128 {e : Engine} {l : Lanes2} (hv : e.variant = some .h128) (hlen : e.len = some n)
    (h0 : e.l0 = some l.lo) (h1 : e.l1 = some l.hi) (hbuf : e.buf = indexed res)
    (hres : res.length = n.toNat % 32) : e.Streams .h128 l n res :=
  ⟨hv, putLanes_two_eq_self_iff.2 ⟨h0, h1⟩, hlen, hbuf, hres⟩

/-- The same on an `H128C` engine. -/
theorem streams_h128c {e : Engine} {l : Lanes2} (hv : e.variant = some .h128c) (hlen : e.len = some n)
    (h0 : e.l0 = some l.lo) (h1 : e.l1 = some l.hi) (hbuf : e.buf = indexed res)
    (hres : res.length = n.toNat % 32) : e.Streams .h128c l n res :=
  ⟨hv, putLanes_two_eq_self_iff.2 ⟨h0, h1⟩, hlen, hbuf, hres⟩

/-- Settles O25: the premises are those of a stream, which `exec_update_of_streams` feeds. -/
theorem updateH64Effect : Obligations.UpdateH64Effect := by
  rintro s b old n l m hphase hv hlen h0 h1 h2 h3 hbuf hold rfl
  exact exec_update_of_streams hphase (streams_h64 hv hlen h0 h1 h2 h3 hbuf hold) b

/-- Settles O26: as O25, for each of the two variants. -/
theorem updateH128Effect : Obligations.UpdateH128Effect := by
  rintro s b old n l m hphase hlen h0 h1 hbuf hold (⟨hv, rfl⟩ | ⟨hv, rfl⟩)
  · exact exec_update_of_streams hphase (streams_h128 hv hlen h0 h1 hbuf hold) b
  · exact exec_update_of_streams hphase (streams_h128c hv hlen h0 h1 hbuf hold) b

/-- An engine whose block step ran keeps every field but the lanes. -/
theorem blockStep_eq {p : Params} {b : List Byte} {e e1 : Engine} (h : blockStep p v b e = .ok e1) :
    e1 = { e with l0 := e1.l0, l1 := e1.l1, l2 := e1.l2, l3 := e1.l3 } := by
  obtain ⟨hvariant, hphase, hbuf, hlen, hpath, hdigest, -⟩ := blockStep_frame h
  cases e1
  simp_all

/-- Settles O27: one byte is absorbed by a store below position 31 and by a block step at it, from any state. -/
theorem updateOneByteFrame : Obligations.UpdateOneByteFrame := by
  intro s t b n hphase hlen hexec
  obtain ⟨-, u, hfeed, rfl⟩ | ⟨hrefused, -⟩ := execUpdate_next_iff.1 hexec
  case inr => exact absurd (updateStatus_of_fed hphase) hrefused
  obtain ⟨e, habsorb, rfl⟩ := feed_ok_iff.1 hfeed
  obtain ⟨e', hbyte, hnil⟩ := absorbAll_cons_ok_iff.1 habsorb
  cases hnil
  obtain ⟨v, n', -, hlen', hcase⟩ := absorb_ok_iff.1 hbyte
  obtain rfl : n = n' := Option.some.inj (hlen.symm.trans hlen')
  rw [respond_engine]
  obtain ⟨hfull, bytes, e1, -, hblock, rfl⟩ | ⟨hroom, m, hwrite, rfl⟩ := hcase
  · refine ⟨fun hlt => absurd hfull hlt.ne, fun _ => ?_⟩
    rw [blockStep_eq hblock]
    rfl
  · obtain ⟨-, rfl⟩ := memWrite_ok_iff.1 hwrite
    refine ⟨fun _ => ⟨rfl, ?_, fun a ha => ?_⟩, fun hfull => absurd hfull hroom⟩
    · rw [read_write, if_pos rfl]
    · rw [read_write, if_neg ha]

/-- Settles O28: the 8 bytes of the register's low half are those of the digest. -/
theorem finalH64Effect : Obligations.FinalH64Effect := by
  intro s res n l hphase hv hlen h0 h1 h2 h3 hbuf hres
  have hfinal := exec_final_of_streams hphase (streams_h64 hv hlen h0 h1 h2 h3 hbuf hres) nofun
  rw [hfinal, ← storeLE_setWidth]
  rfl

/-- Settles O29: as O28; for `H128C` the digest of the path held is that of either path. -/
theorem finalH128Effect : Obligations.FinalH128Effect := by
  rintro s res n l d hphase hlen h0 h1 hbuf hres (⟨hv, rfl⟩ | ⟨hv, hpath, rfl⟩)
  · exact exec_final_of_streams hphase (streams_h128 hv hlen h0 h1 hbuf hres) nofun
  · exact exec_final_of_streams hphase (streams_h128c hv hlen h0 h1 hbuf hres) fun _ => hpath

/-! ### One-shot hashing and the capabilities -/

/-- Settles O30: `hashDigest` of `H64` is `hash64`, in the low half of the register. -/
theorem hashH64Effect : Obligations.HashH64Effect := by
  rintro seed b s c m hcaps rfl
  rw [← storeLE_setWidth]
  exact exec_hashOf_of_capsAre hcaps .h64 seed b

/-- Settles O31: `hashDigest` of `H128` is `hash128`. -/
theorem hashH128Effect : Obligations.HashH128Effect := by
  rintro seed b s c m hcaps rfl
  exact exec_hashOf_of_capsAre hcaps .h128 seed b

/-- Settles O32: `hashDigest` of `H128C` is `hash128c`, whatever path was latched. -/
theorem hashH128CEffect : Obligations.HashH128CEffect := by
  rintro seed b s c m hcaps rfl
  exact exec_hashOf_of_capsAre hcaps .h128c seed b

/-- The two capability bits as a number: `crc` above `simd` (R54). -/
theorem capsBits_eq_ofNat (c : Caps) : capsBits c = BitVec.ofNat 2 (2 * c.crc.toNat + c.simd.toNat) := by
  obtain ⟨simd, crc⟩ := c
  cases simd <;> cases crc <;> rfl

/-- Settles O40: the two bits are the capabilities that detection leaves. -/
theorem capsEffect : Obligations.CapsEffect := by
  intro s c hcaps
  rw [← capsBits_eq_ofNat]
  exact exec_caps_of_capsAre hcaps

end Sys2Proof.Machine
end

section
/-! What a completed command can have done, from any state: frames, responses, refusals and the held digest
(45_commands.md, 60_exceptions.md section 1, 10_state.md section 5). -/

namespace Sys2Proof.Machine

variable {s t : State} {v : Variant}

/-! ### Inversion: the next states of each command -/

/-- `capsAre` names the capabilities held after detection, and there are some exactly if it holds of some. -/
theorem capsAre_iff_detect {c : Caps} : s.capsAre c ↔ (detect s.probe s.dispatcher).caps = some c := by
  refine ⟨fun hcaps => by rw [detect_of_capsAre hcaps], fun hdetect => ?_⟩
  obtain ⟨hran, hruns⟩ := detect_eq s.probe s.dispatcher
  refine ⟨fun hvalid => by rwa [hran hvalid] at hdetect, fun hvalid => ?_⟩
  rw [hruns hvalid] at hdetect
  exact (Option.some.inj hdetect).symm

theorem exec_initOf_next_iff {seed : Word} :
    exec (initOf v seed) s = .next t ↔ ∃ c, s.capsAre c ∧
      t = respond { status := .ok, value := none } { s with
        dispatcher := { capsValid := true, caps := some c }
        engine := freshEngine s.params v seed (some (capsPath c)) } := by
  constructor
  · intro h
    obtain ⟨u, hconstruct, -⟩ := answerPlain_next_iff.1 (exec_initOf v seed s ▸ h)
    obtain ⟨c, hdetect, -⟩ := construct_ok_iff.1 hconstruct
    have hcaps := capsAre_iff_detect.2 hdetect
    exact ⟨c, hcaps, next_eq_next_iff.1 ((exec_initOf_of_capsAre hcaps v seed).symm.trans h)⟩
  · rintro ⟨c, hcaps, rfl⟩
    exact exec_initOf_of_capsAre hcaps v seed

theorem exec_hashOf_next_iff {seed : Word} {b : List Byte} :
    exec (hashOf v seed b) s = .next t ↔ ∃ c, s.capsAre c ∧
      t = respond { status := .ok, value := some (.digest (digestValue v (hashDigest s.params v seed b))) } { s with
        dispatcher := { capsValid := true, caps := some c }
        engine := hashedEngine s.params v seed b (some (capsPath c)) } := by
  constructor
  · intro h
    obtain ⟨u, _, hshot, -⟩ := answerDigest_next_iff.1 (exec_hashOf v seed b s ▸ h)
    obtain ⟨s1, _, hconstruct, -⟩ := oneShot_ok_iff.1 hshot
    obtain ⟨c, hdetect, -⟩ := construct_ok_iff.1 hconstruct
    have hcaps := capsAre_iff_detect.2 hdetect
    exact ⟨c, hcaps, next_eq_next_iff.1 ((exec_hashOf_of_capsAre hcaps v seed b).symm.trans h)⟩
  · rintro ⟨c, hcaps, rfl⟩
    exact exec_hashOf_of_capsAre hcaps v seed b

theorem exec_caps_next_iff :
    exec .caps s = .next t ↔ ∃ c, s.capsAre c ∧
      t = respond { status := .ok, value := some (.caps (capsBits c)) }
        { s with dispatcher := { capsValid := true, caps := some c } } := by
  constructor
  · intro h
    obtain ⟨c, hdetect, -⟩ := execCaps_next_iff.1 h
    have hcaps := capsAre_iff_detect.2 hdetect
    exact ⟨c, hcaps, next_eq_next_iff.1 ((exec_caps_of_capsAre hcaps).symm.trans h)⟩
  · rintro ⟨c, hcaps, rfl⟩
    exact exec_caps_of_capsAre hcaps

/-- `UPDATE` absorbs and goes to `ACCUM`, or is refused. -/
theorem exec_update_next_cases {b : List Byte} (h : exec (.update b) s = .next t) :
    (updateStatus s.engine.phase = .ok ∧ ∃ e, absorbAll s.params b s.engine = .ok e ∧
      t = respond { status := .ok, value := none } { s with engine := { e with phase := .accum } }) ∨
    (updateStatus s.engine.phase ≠ .ok ∧ t = misuse (updateStatus s.engine.phase) none s) := by
  obtain ⟨hok, u, hfeed, rfl⟩ | hrefused := execUpdate_next_iff.1 h
  · obtain ⟨e, habsorb, rfl⟩ := feed_ok_iff.1 hfeed
    exact .inl ⟨hok, e, habsorb, rfl⟩
  · exact .inr hrefused

/-- `FINAL` writes the digest of the engine as it stands, or is refused, with the digest if one is held. -/
theorem exec_final_next_cases (h : exec .final s = .next t) :
    (∃ d r, finalDigest s.params s.engine = .ok d ∧
      t = respond { status := .ok, value := some r } { s with
        engine := { s.engine with digest := some d, phase := .final } }) ∨
    (∃ r, t = misuse .errRefinalize (some r) s) ∨ t = misuse .errUnconfigured none s := by
  obtain ⟨-, u, r, hfinish, -, rfl⟩ | ⟨-, r, -, rfl⟩ | ⟨-, rfl⟩ := execFinal_next_iff.1 h
  · obtain ⟨d, hd, rfl⟩ := finish_ok_iff.1 hfinish
    exact .inl ⟨d, r, hd, rfl⟩
  · exact .inr (.inl ⟨r, rfl⟩)
  · exact .inr (.inr rfl)

/-- `RESET` leaves a fresh engine of the variant held, or is refused. -/
theorem exec_reset_next_cases {seed : Word} (h : exec (.reset seed) s = .next t) :
    (∃ v, s.engine.variant = some v ∧ t = respond { status := .ok, value := none } { s with
      engine := freshEngine s.params v seed s.engine.path }) ∨
    t = misuse .errUnconfigured none s := by
  obtain ⟨hphase, u, hreseed, -⟩ | ⟨-, rfl⟩ := execReset_next_iff.1 h
  · obtain ⟨v, hv, -⟩ := reseed_ok_iff.1 hreseed
    exact .inl ⟨v, hv, next_eq_next_iff.1 ((exec_reset_of_variant hphase hv seed).symm.trans h)⟩
  · exact .inr rfl

/-- A completed command is a reserved word refused, or a legal one executed. -/
theorem issue_next_cases {c : Command} (h : issue c s = .next t) :
    t = misuse .errBadCmd none s ∨ t = misuse .errBadVariant none s ∨
      ∃ i, decode c = .instr i ∧ exec i s = .next t := by
  unfold issue at h
  split at h
  · exact .inl (next_eq_next_iff.1 h)
  · exact .inr (.inl (next_eq_next_iff.1 h))
  · rename_i i hdecode
    split at h
    · exact .inr (.inr ⟨i, hdecode, h⟩)
    · cases h

/-- A completed step is idle, or issues the first command pending. -/
theorem step_next_cases (h : step s = .next t) :
    t = s ∨ ∃ c rest, s.pending = c :: rest ∧ issue c { s with pending := rest } = .next t := by
  cases hpending : s.pending with
  | nil => exact .inl (next_eq_next_iff.1 (step_of_idle hpending ▸ h))
  | cons c rest => exact .inr ⟨c, rest, rfl, step_of_pending hpending ▸ h⟩

/-! ### The dispatcher (R118 to R120) -/

/-- The commands that consult the dispatcher: construction, one-shot hashing and the query. -/
def consultsDispatcher : Instr → Bool
  | .initH64 _ => true
  | .initH128 _ => true
  | .initH128C _ => true
  | .update _ => false
  | .final => false
  | .reset _ => false
  | .hashH64 _ _ => true
  | .hashH128 _ _ => true
  | .hashH128C _ _ => true
  | .caps => true

/-- A command that consults the dispatcher leaves it as detection does; the others leave it alone. -/
theorem exec_dispatcher {i : Instr} (h : exec i s = .next t) :
    t.dispatcher = if consultsDispatcher i then detect s.probe s.dispatcher else s.dispatcher := by
  induction i using instr_cases with
  | init v seed =>
    obtain ⟨c, hcaps, rfl⟩ := exec_initOf_next_iff.1 h
    rw [respond_dispatcher, detect_of_capsAre hcaps]
    cases v <;> rfl
  | update b => obtain ⟨-, e, -, rfl⟩ | ⟨-, rfl⟩ := exec_update_next_cases h <;> rfl
  | final => obtain ⟨d, r, -, rfl⟩ | ⟨r, rfl⟩ | rfl := exec_final_next_cases h <;> rfl
  | reset seed => obtain ⟨v, -, rfl⟩ | rfl := exec_reset_next_cases h <;> rfl
  | hash v seed b =>
    obtain ⟨c, hcaps, rfl⟩ := exec_hashOf_next_iff.1 h
    rw [respond_dispatcher, detect_of_capsAre hcaps]
    cases v <;> rfl
  | caps =>
    obtain ⟨c, hcaps, rfl⟩ := exec_caps_next_iff.1 h
    rw [respond_dispatcher, detect_of_capsAre hcaps]
    rfl

/-- Settles O41: detection changes nothing once it has run, and otherwise stores the probe's answer. -/
theorem detectionRunsOnce : Obligations.DetectionRunsOnce := by
  intro i s t h
  have hdispatcher := exec_dispatcher h
  obtain ⟨hran, hruns⟩ := detect_eq s.probe s.dispatcher
  refine ⟨fun hvalid => ?_, fun hvalid => ⟨?_, fun hupdate hfinal hreset => ?_⟩⟩
  · rwa [hran hvalid, ite_self] at hdispatcher
  · rintro (⟨c, rfl⟩ | rfl | ⟨seed, rfl⟩) <;> exact hdispatcher
  · have hconsults : consultsDispatcher i = true := by
      cases i with
      | update c => exact absurd rfl (hupdate c)
      | final => exact absurd rfl hfinal
      | reset seed => exact absurd rfl (hreset seed)
      | _ => rfl
    rwa [hconsults, if_pos rfl, hruns hvalid] at hdispatcher

/-! ### One response, and refusals change nothing (R52, R142) -/

/-- A command has been answered with the response `r`: it is appended, what no command writes is kept, and a
refusal keeps the engine and the dispatcher and carries no value but the digest of R144. -/
structure Answered (s t : State) (r : Response) : Prop where
  responses : t.responses = s.responses ++ [r]
  params : t.params = s.params
  probe : t.probe = s.probe
  pending : t.pending = s.pending
  refusal : r.status ≠ .ok → t.engine = s.engine ∧ t.dispatcher = s.dispatcher
  value : r.status ≠ .ok → r.status ≠ .errRefinalize → r.value = none

theorem answered_respond (value : Option RespValue) (e : Engine) (d : Dispatcher) :
    Answered s (respond { status := .ok, value := value } { s with engine := e, dispatcher := d })
      { status := .ok, value := value } where
  responses := rfl
  params := rfl
  probe := rfl
  pending := rfl
  refusal := fun h => absurd rfl h
  value := fun h => absurd rfl h

theorem answered_misuse (status : Status) (value : Option RespValue) (h : status ≠ .errRefinalize → value = none) :
    Answered s (misuse status value s) { status := status, value := value } where
  responses := rfl
  params := rfl
  probe := rfl
  pending := rfl
  refusal := fun _ => ⟨rfl, rfl⟩
  value := fun _ => h

/-- Every completed command is answered once. -/
theorem exec_answered {i : Instr} (h : exec i s = .next t) : ∃ r, Answered s t r := by
  induction i using instr_cases with
  | init v seed =>
    obtain ⟨c, -, rfl⟩ := exec_initOf_next_iff.1 h
    exact ⟨_, answered_respond none _ _⟩
  | update b =>
    obtain ⟨-, e, -, rfl⟩ | ⟨-, rfl⟩ := exec_update_next_cases h
    · exact ⟨_, answered_respond none _ _⟩
    · exact ⟨_, answered_misuse _ none fun _ => rfl⟩
  | final =>
    obtain ⟨d, r, -, rfl⟩ | ⟨r, rfl⟩ | rfl := exec_final_next_cases h
    · exact ⟨_, answered_respond (some r) _ _⟩
    · exact ⟨_, answered_misuse _ (some r) fun hstatus => absurd rfl hstatus⟩
    · exact ⟨_, answered_misuse _ none fun _ => rfl⟩
  | reset seed =>
    obtain ⟨v, -, rfl⟩ | rfl := exec_reset_next_cases h
    · exact ⟨_, answered_respond none _ _⟩
    · exact ⟨_, answered_misuse _ none fun _ => rfl⟩
  | hash v seed b =>
    obtain ⟨c, -, rfl⟩ := exec_hashOf_next_iff.1 h
    exact ⟨_, answered_respond _ _ _⟩
  | caps =>
    obtain ⟨c, -, rfl⟩ := exec_caps_next_iff.1 h
    exact ⟨_, answered_respond _ _ _⟩

theorem issue_answered {c : Command} (h : issue c s = .next t) : ∃ r, Answered s t r := by
  obtain rfl | rfl | ⟨i, -, hexec⟩ := issue_next_cases h
  · exact ⟨_, answered_misuse _ none fun _ => rfl⟩
  · exact ⟨_, answered_misuse _ none fun _ => rfl⟩
  · exact exec_answered hexec

/-- Settles O45: every way for a command to complete answers it once. -/
theorem oneResponseAndRefusalsChangeNothing : Obligations.OneResponseAndRefusalsChangeNothing := by
  intro c s t h
  obtain ⟨r, hr⟩ := issue_answered h
  exact ⟨r, hr.responses, hr.params, hr.probe, hr.pending, hr.refusal, hr.value⟩

/-! ### Frames -/

/-- Settles O47: the four inversions, and what absorbing keeps. -/
theorem commandFrames : Obligations.CommandFrames := by
  refine ⟨fun b s t h => ?_, fun s t h => ?_, fun seed s t h => ?_, fun s t h => ?_⟩
  · obtain ⟨-, e, habsorb, rfl⟩ | ⟨-, rfl⟩ := exec_update_next_cases h
    · obtain ⟨hvariant, -, hpath, hdigest, hupper⟩ := absorbAll_frame habsorb
      exact ⟨hvariant, hpath, hdigest, rfl, hupper⟩
    · exact ⟨rfl, rfl, rfl, rfl, fun _ => ⟨rfl, rfl⟩⟩
  · obtain ⟨d, r, -, rfl⟩ | ⟨r, rfl⟩ | rfl := exec_final_next_cases h <;> exact ⟨rfl, fun _ => rfl, rfl⟩
  · obtain ⟨v, hv, rfl⟩ | rfl := exec_reset_next_cases h
    · exact ⟨(freshEngine_variant ..).trans hv.symm, freshEngine_path .., rfl⟩
    · exact ⟨rfl, rfl, rfl⟩
  · obtain ⟨c, -, rfl⟩ := exec_caps_next_iff.1 h
    rfl

/-- Settles O48: of the other commands, those that write the digest leave or refuse phase `FINAL`. -/
theorem heldDigestIsImmutable : Obligations.HeldDigestIsImmutable := by
  intro i s t h hbefore hafter hnotHash
  induction i using instr_cases with
  | init v seed =>
    obtain ⟨c, -, rfl⟩ := exec_initOf_next_iff.1 h
    simp at hafter
  | update b =>
    rw [exec_update_of_final hbefore] at h
    cases h
    rfl
  | final =>
    obtain ⟨hfed, -⟩ | ⟨-, r, -, rfl⟩ | ⟨-, rfl⟩ := execFinal_next_iff.1 h
    · simp [hbefore] at hfed
    · rfl
    · rfl
  | reset seed =>
    obtain ⟨v, -, rfl⟩ | rfl := exec_reset_next_cases h
    · simp at hafter
    · rfl
  | hash v seed b => exact absurd rfl (hnotHash v seed b)
  | caps =>
    obtain ⟨c, -, rfl⟩ := exec_caps_next_iff.1 h
    rfl

/-! ### The digest stays that of the engine beside it (R20) -/

/-- Outside `FINAL` there is nothing to show. -/
theorem snapshot_of_phase_ne (h : s.engine.phase ≠ .final) : s.snapshot := fun hphase => absurd hphase h

/-- The property is about engine and `P` alone. -/
theorem State.snapshot.of_engine_eq (h : s.snapshot) (hengine : t.engine = s.engine)
    (hparams : t.params = s.params) : t.snapshot := by
  unfold State.snapshot
  rw [hengine, hparams]
  exact h

/-- Every command keeps the property: the two that end in `FINAL` write the digest of the engine they leave. -/
theorem exec_keeps_snapshot {i : Instr} (hs : s.snapshot) (h : exec i s = .next t) : t.snapshot := by
  induction i using instr_cases with
  | init v seed =>
    obtain ⟨c, -, rfl⟩ := exec_initOf_next_iff.1 h
    exact snapshot_of_phase_ne (by simp)
  | update b =>
    obtain ⟨-, e, -, rfl⟩ | ⟨-, rfl⟩ := exec_update_next_cases h
    · exact snapshot_of_phase_ne (by simp)
    · exact hs.of_engine_eq rfl rfl
  | final =>
    obtain ⟨d, r, hdigest, rfl⟩ | ⟨r, rfl⟩ | rfl := exec_final_next_cases h
    · exact fun _ => ⟨d, rfl, (finalDigest_of_finished s.params s.engine .final (some d)).trans hdigest⟩
    · exact hs.of_engine_eq rfl rfl
    · exact hs.of_engine_eq rfl rfl
  | reset seed =>
    obtain ⟨v, -, rfl⟩ | rfl := exec_reset_next_cases h
    · exact snapshot_of_phase_ne (by simp)
    · exact hs.of_engine_eq rfl rfl
  | hash v seed b =>
    obtain ⟨c, -, rfl⟩ := exec_hashOf_next_iff.1 h
    exact fun _ => ⟨hashDigest s.params v seed b, rfl,
      finalDigest_of_streams (hashedEngine_streams ..) fun _ => by simp [hashedEngine]⟩
  | caps =>
    obtain ⟨c, -, rfl⟩ := exec_caps_next_iff.1 h
    exact hs.of_engine_eq rfl rfl

/-- Settles O52: a step is idle, a refusal, or a command, which keeps the property from every state. -/
theorem stepKeepsDigestSnapshot : Obligations.StepKeepsDigestSnapshot := by
  intro s t _ hs h
  obtain rfl | ⟨c, rest, -, hissue⟩ := step_next_cases h
  · exact hs
  · have hs' : State.snapshot { s with pending := rest } := hs.of_engine_eq rfl rfl
    obtain rfl | rfl | ⟨i, -, hexec⟩ := issue_next_cases hissue
    · exact hs.of_engine_eq rfl rfl
    · exact hs.of_engine_eq rfl rfl
    · exact exec_keeps_snapshot hs' hexec

end Sys2Proof.Machine
end

section
/-! Proofs about valid states: every command completes by the acceptance table, every step keeps the validity
table, and no response but that of `CAPS` depends on the path (10_state.md sections 5, 8 and 9, 45_commands.md
sections 1 and 8). -/

namespace Sys2Proof.Machine

variable {s t : State} {v : Variant} {l : LanesOf v} {n : Word} {res : List Byte}

/-! ### A valid state outside `UNCONF`, by its stream -/

/-- A state outside `UNCONF` whose engine is in the middle of a stream, with every other field as the table of
R29, the dispatcher's R120 and the digest's R20 say. -/
structure State.Live (s : State) (v : Variant) (l : LanesOf v) (n : Word) (res : List Byte) : Prop where
  streams : s.engine.Streams v l n res
  upper : v ≠ .h64 → s.engine.l2 = none ∧ s.engine.l3 = none
  path : s.engine.path = some (capsPath (probedCaps s.probe))
  dispatcher : s.dispatcher = { capsValid := true, caps := some (probedCaps s.probe) }
  phase : s.engine.phase ≠ .unconf
  empty : s.engine.phase = .empty → n = 0
  noDigest : s.engine.phase ≠ .final → s.engine.digest = none
  digest : s.engine.phase = .final → ∃ d, s.engine.digest = some d ∧ (v = .h64 → d.toNat < 2 ^ 64)

/-- The lanes of a stream hold values. -/
theorem Engine.Streams.lanes_isSome {e : Engine} (h : e.Streams v l n res) :
    e.l0.isSome = true ∧ e.l1.isSome = true ∧ (v = .h64 → e.l2.isSome = true ∧ e.l3.isSome = true) := by
  have hlanes := h.lanes
  cases v
  case h64 =>
    obtain ⟨h0, h1, h2, h3⟩ := putLanes_h64_eq_self_iff.1 hlanes
    simp [h0, h1, h2, h3]
  case h128 =>
    obtain ⟨h0, h1⟩ := putLanes_two_eq_self_iff.1 hlanes
    simp [h0, h1]
  case h128c =>
    obtain ⟨h0, h1⟩ := putLanes_two_eq_self_iff.1 hlanes
    simp [h0, h1]

/-- Lanes that hold values are the lanes of some stream. -/
theorem exists_lanes {e : Engine} (h0 : e.l0.isSome = true) (h1 : e.l1.isSome = true)
    (hupper : v = .h64 → e.l2.isSome = true ∧ e.l3.isSome = true) : ∃ l, putLanes v e l = e := by
  obtain ⟨w0, h0⟩ := Option.isSome_iff_exists.1 h0
  obtain ⟨w1, h1⟩ := Option.isSome_iff_exists.1 h1
  cases v
  case h64 =>
    obtain ⟨h2, h3⟩ := hupper rfl
    obtain ⟨w2, h2⟩ := Option.isSome_iff_exists.1 h2
    obtain ⟨w3, h3⟩ := Option.isSome_iff_exists.1 h3
    exact ⟨⟨w0, w1, w2, w3⟩, putLanes_h64_eq_self_iff.2 ⟨h0, h1, h2, h3⟩⟩
  case h128 => exact ⟨⟨w0, w1⟩, putLanes_two_eq_self_iff.2 ⟨h0, h1⟩⟩
  case h128c => exact ⟨⟨w0, w1⟩, putLanes_two_eq_self_iff.2 ⟨h0, h1⟩⟩

theorem residualCount_of_len {e : Engine} (h : e.len = some n) : residualCount e = fill n := by
  rw [residualCount, h]
  rfl

theorem State.Live.valid (h : s.Live v l n res) : s.valid := by
  obtain ⟨h0, h1, h23⟩ := h.streams.lanes_isSome
  have hvariant := h.streams.variant
  have hbuf : s.engine.buf.map Prod.fst = List.range (residualCount s.engine) := by
    rw [h.streams.buf, indexed_map_fst, residualCount_of_len h.streams.len, h.streams.length]
  refine ⟨⟨fun hphase => absurd hphase h.phase, fun _ => ⟨?_, ?_, ?_, h0, h1, ?_, ?_, hbuf⟩, fun hphase => ?_,
    fun hphase => ?_, h.noDigest, fun hv => ?_⟩, ?_, fun _ => ⟨?_, h.path⟩⟩
  · rw [hvariant, Option.isSome_some]
  · rw [h.path, Option.isSome_some]
  · rw [h.streams.len, Option.isSome_some]
  · exact fun hv => h23 (Option.some.inj (hvariant.symm.trans hv))
  · exact fun hv => h.upper fun heq => hv (heq ▸ hvariant)
  · rw [h.streams.len, h.empty hphase]
  · obtain ⟨d, hd, -⟩ := h.digest hphase
    rw [hd, Option.isSome_some]
  · by_cases hphase : s.engine.phase = .final
    · obtain ⟨d, hd, hlt⟩ := h.digest hphase
      rw [hd, Option.getD_some]
      exact hlt (Option.some.inj (hvariant.symm.trans hv))
    · rw [h.noDigest hphase]
      decide
  · rw [Dispatcher.valid, h.dispatcher, if_pos rfl]
  · rw [h.dispatcher]

/-- Every valid state outside `UNCONF` is live. -/
theorem State.valid.exists_live (h : s.valid) (hphase : s.engine.phase ≠ .unconf) :
    ∃ v l n res, s.Live v l n res := by
  obtain ⟨⟨-, hconfigured, hempty, hfinal, hnoDigest, hlow⟩, hcaps, hpath⟩ := h
  obtain ⟨hvariant, -, hlen, h0, h1, hupper, hnone, hbuf⟩ := hconfigured hphase
  obtain ⟨hvalid, hpath⟩ := hpath hphase
  obtain ⟨v, hvariant⟩ := Option.isSome_iff_exists.1 hvariant
  obtain ⟨n, hlen⟩ := Option.isSome_iff_exists.1 hlen
  obtain ⟨l, hlanes⟩ := exists_lanes h0 h1 fun hv => hupper (hv ▸ hvariant)
  obtain ⟨res, hres, hbuf⟩ := eq_indexed_of_map_fst hbuf
  rw [residualCount_of_len hlen] at hres
  refine ⟨v, l, n, res, ⟨hvariant, hlanes, hlen, hbuf, hres⟩, fun hv => hnone fun heq => hv ?_, hpath, ?_, hphase,
    fun hp => Option.some.inj (hlen.symm.trans (hempty hp)), hnoDigest, fun hp => ?_⟩
  · exact Option.some.inj (hvariant.symm.trans heq)
  · rw [← detect_of_valid hcaps, (detect_eq _ _).1 hvalid]
  · obtain ⟨d, hd⟩ := Option.isSome_iff_exists.1 (hfinal hp)
    exact ⟨d, hd, fun hv => by simpa [hd] using hlow (hv ▸ hvariant)⟩

/-- Validity is about engine, dispatcher and probe answer alone. -/
theorem State.valid.of_eq (h : s.valid) (hengine : t.engine = s.engine) (hdispatcher : t.dispatcher = s.dispatcher)
    (hprobe : t.probe = s.probe) : t.valid := by
  simp only [State.valid, hengine, hdispatcher, hprobe]
  exact h

/-- Detection keeps a state valid (R120). -/
theorem State.valid.of_detected (h : s.valid) (hengine : t.engine = s.engine)
    (hdispatcher : t.dispatcher = { capsValid := true, caps := some (probedCaps s.probe) })
    (hprobe : t.probe = s.probe) : t.valid := by
  refine ⟨hengine ▸ h.1, ?_, fun hphase => ⟨by rw [hdispatcher], ?_⟩⟩
  · rw [Dispatcher.valid, hdispatcher, hprobe, if_pos rfl]
  · rw [hengine] at hphase ⊢
    rw [hprobe]
    exact (h.2.2 hphase).2

/-! ### The live states that commands leave -/

/-- A fresh engine on the path of the capabilities. -/
theorem live_fresh (seed : Word)
    (hengine : s.engine = freshEngine s.params v seed (some (capsPath (probedCaps s.probe))))
    (hdispatcher : s.dispatcher = { capsValid := true, caps := some (probedCaps s.probe) }) :
    s.Live v (seedLanes s.params v seed) 0 [] where
  streams := hengine ▸ freshEngine_streams ..
  upper := hengine ▸ freshEngine_upper_lanes _ _ _ _
  path := by rw [hengine, freshEngine_path]
  dispatcher := hdispatcher
  phase := by rw [hengine, freshEngine_phase]; decide
  empty := fun _ => rfl
  noDigest := fun _ => by rw [hengine, freshEngine_digest]
  digest := fun hphase => by rw [hengine, freshEngine_phase] at hphase; cases hphase

/-- Outside `H64` a stream written to an engine keeps `L[2]` and `L[3]`. -/
theorem streamEngine_upper_lanes (e : Engine) (hv : v ≠ .h64) :
    (streamEngine e v l n res).l2 = e.l2 ∧ (streamEngine e v l n res).l3 = e.l3 := by
  cases v
  · exact absurd rfl hv
  · exact ⟨rfl, rfl⟩
  · exact ⟨rfl, rfl⟩

/-- An engine that has been fed. -/
theorem State.Live.fed (h : s.Live v l n res) (hphase : s.engine.phase ≠ .final) (b : List Byte) (m : LanesOf v)
    (hengine : t.engine = { streamEngine s.engine v m (n + BitVec.ofNat 64 b.length) (residue (res ++ b)) with
      phase := .accum })
    (hdispatcher : t.dispatcher = s.dispatcher) (hprobe : t.probe = s.probe) :
    t.Live v m (n + BitVec.ofNat 64 b.length) (residue (res ++ b)) where
  streams := hengine ▸ (h.streams.absorbed b m).of_other_fields .accum _ _
  upper := fun hv => by
    obtain ⟨h2, h3⟩ := streamEngine_upper_lanes (l := m) (n := n + BitVec.ofNat 64 b.length)
      (res := residue (res ++ b)) s.engine hv
    rw [hengine, h2, h3]
    exact h.upper hv
  path := by rw [hengine, hprobe]; simpa using h.path
  dispatcher := by rw [hdispatcher, hprobe, h.dispatcher]
  phase := by rw [hengine]; exact nofun
  empty := fun hp => by rw [hengine] at hp; cases hp
  noDigest := fun _ => by rw [hengine]; simpa using h.noDigest hphase
  digest := fun hp => by rw [hengine] at hp; cases hp

/-- The upper half of an `H64` digest is 0 (R20). -/
theorem digestOf_h64_lt (p : Params) (hv : v = .h64) : (digestOf p v l res).toNat < 2 ^ 64 := by
  subst hv
  rw [digestOf, BitVec.toNat_setWidth]
  exact (Nat.mod_le _ _).trans_lt (BitVec.isLt _)

/-- An engine that has been finalised. -/
theorem State.Live.finished (h : s.Live v l n res)
    (hengine : t.engine = { s.engine with phase := .final, digest := some (digestOf s.params v l res) })
    (hdispatcher : t.dispatcher = s.dispatcher) (hprobe : t.probe = s.probe) : t.Live v l n res where
  streams := hengine ▸ h.streams.of_other_fields .final _ _
  upper := by rw [hengine]; exact h.upper
  path := by rw [hengine, hprobe]; exact h.path
  dispatcher := by rw [hdispatcher, hprobe, h.dispatcher]
  phase := by rw [hengine]; exact nofun
  empty := fun hp => by rw [hengine] at hp; cases hp
  noDigest := fun hp => by rw [hengine] at hp; exact absurd rfl hp
  digest := fun _ => ⟨_, by rw [hengine], digestOf_h64_lt s.params⟩

/-- The state that one-shot hashing leaves is that of construction, fed and finalised. -/
theorem live_hashed (seed : Word) (b : List Byte)
    (hengine : s.engine = hashedEngine s.params v seed b (some (capsPath (probedCaps s.probe))))
    (hdispatcher : s.dispatcher = { capsValid := true, caps := some (probedCaps s.probe) }) :
    s.Live v (mixBlocks (blockLanes s.params v) (seedLanes s.params v seed) b) (0 + BitVec.ofNat 64 b.length)
      (residue ([] ++ b)) := by
  have hfresh := live_fresh (s := { s with
    engine := freshEngine s.params v seed (some (capsPath (probedCaps s.probe))) }) seed rfl hdispatcher
  have hfed := hfresh.fed (by simp) b (mixBlocks (blockLanes s.params v) (seedLanes s.params v seed) b)
    (t := { s with engine := { streamEngine _ v _ _ _ with phase := .accum } }) rfl rfl rfl
  refine hfed.finished ?_ rfl rfl
  rw [hengine, hashedEngine, zero_add, List.nil_append, hashDigest]

/-! ### The acceptance table (R127) -/

/-- A completed command, its status and phase by the table, its next state valid. -/
def FollowsTable (i : Instr) (s t : State) : Prop :=
  (∃ r, t.responses = s.responses ++ [r] ∧ r.status = tableStatus i s.engine.phase) ∧
    t.engine.phase = tablePhase i s.engine.phase ∧ t.valid

/-- A refusal follows the table if its status is the table's and the table keeps the phase. -/
theorem followsTable_misuse {i : Instr} {status : Status} (value : Option RespValue) (hs : s.valid)
    (hstatus : tableStatus i s.engine.phase = status) (hphase : tablePhase i s.engine.phase = s.engine.phase) :
    FollowsTable i s (misuse status value s) :=
  ⟨⟨_, rfl, hstatus.symm⟩, hphase.symm, hs.of_eq rfl rfl rfl⟩

/-- The commands that consult the dispatcher are accepted in every phase. -/
theorem exec_followsTable_of_consults {i : Instr} (hs : s.valid) (hi : consultsDispatcher i = true) :
    ∃ t, exec i s = .next t ∧ FollowsTable i s t := by
  have hcaps := capsAre_of_valid hs
  induction i using instr_cases with
  | init v seed =>
    refine ⟨_, exec_initOf_of_capsAre hcaps v seed, ⟨_, rfl, by cases v <;> rfl⟩, ?_,
      State.Live.valid (live_fresh (v := v) seed rfl rfl)⟩
    rw [respond_engine, freshEngine_phase]
    cases v <;> rfl
  | hash v seed b =>
    exact ⟨_, exec_hashOf_of_capsAre hcaps v seed b, ⟨_, rfl, by cases v <;> rfl⟩, by cases v <;> rfl,
      State.Live.valid (live_hashed (v := v) seed b rfl rfl)⟩
  | caps => exact ⟨_, exec_caps_of_capsAre hcaps, ⟨_, rfl, rfl⟩, rfl, hs.of_detected rfl rfl rfl⟩
  | update b => cases hi
  | final => cases hi
  | reset seed => cases hi

/-- `UPDATE`, `FINAL` and `RESET` are refused before the first construction. -/
theorem exec_followsTable_of_unconf {i : Instr} (hs : s.valid) (hphase : s.engine.phase = .unconf)
    (hi : (∃ c, i = .update c) ∨ i = .final ∨ ∃ seed, i = .reset seed) :
    ∃ t, exec i s = .next t ∧ FollowsTable i s t := by
  refine ⟨_, unconfiguredEngineRefuses i s hphase hi, followsTable_misuse none hs ?_ ?_⟩ <;>
    rw [hphase] <;> rcases hi with ⟨c, rfl⟩ | rfl | ⟨seed, rfl⟩ <;> rfl

/-- The phases of a configured engine. -/
theorem phase_cases {ph : Phase} (h : ph ≠ .unconf) : ph = .final ∨ ph = .empty ∨ ph = .accum := by
  cases ph
  · exact absurd rfl h
  · exact .inr (.inl rfl)
  · exact .inr (.inr rfl)
  · exact .inl rfl

/-- The row `RESET` of the table, outside `UNCONF`. -/
theorem table_reset {ph : Phase} (h : ph ≠ .unconf) (seed : Word) :
    tableStatus (.reset seed) ph = .ok ∧ tablePhase (.reset seed) ph = .empty := by
  obtain rfl | rfl | rfl := phase_cases h <;> exact ⟨rfl, rfl⟩

theorem State.Live.path_isSome (h : s.Live v l n res) : s.engine.path.isSome = true := by
  rw [h.path, Option.isSome_some]

theorem State.Live.update_followsTable (h : s.Live v l n res) (b : List Byte) :
    ∃ t, exec (.update b) s = .next t ∧ FollowsTable (.update b) s t := by
  rcases phase_cases h.phase with hfinal | hfed
  · refine ⟨_, exec_update_of_final hfinal b, followsTable_misuse none h.valid ?_ ?_⟩ <;> rw [hfinal] <;> rfl
  · have hfinal : s.engine.phase ≠ .final := by rcases hfed with hp | hp <;> rw [hp] <;> decide
    refine ⟨_, exec_update_of_streams hfed h.streams b, ⟨_, rfl, ?_⟩, ?_,
      State.Live.valid (h.fed hfinal b _ rfl rfl rfl)⟩ <;> rcases hfed with hp | hp <;> rw [hp] <;> rfl

theorem State.Live.final_followsTable (h : s.Live v l n res) :
    ∃ t, exec .final s = .next t ∧ FollowsTable .final s t := by
  rcases phase_cases h.phase with hfinal | hfed
  · obtain ⟨d, hd, -⟩ := h.digest hfinal
    refine ⟨_, secondFinalShowsHeldDigest s v d hfinal h.streams.variant hd,
      followsTable_misuse (some _) h.valid ?_ ?_⟩ <;> rw [hfinal] <;> rfl
  · refine ⟨_, exec_final_of_streams hfed h.streams fun _ => h.path_isSome, ⟨_, rfl, ?_⟩, ?_,
      State.Live.valid (h.finished rfl rfl rfl)⟩ <;> rcases hfed with hp | hp <;> rw [hp] <;> rfl

theorem State.Live.reset_followsTable (h : s.Live v l n res) (seed : Word) :
    ∃ t, exec (.reset seed) s = .next t ∧ FollowsTable (.reset seed) s t := by
  obtain ⟨hstatus, hphase⟩ := table_reset h.phase seed
  refine ⟨_, exec_reset_of_variant h.phase h.streams.variant seed, ⟨_, rfl, hstatus.symm⟩, ?_,
    State.Live.valid (live_fresh (v := v) seed ?_ h.dispatcher)⟩
  · rw [hphase, respond_engine, freshEngine_phase]
  · rw [respond_engine, h.path]
    rfl

/-- From a valid state every command completes, with the status and the phase of its row and column, in a valid
state: in `UNCONF` by the refusals, elsewhere by the stream the state holds. -/
theorem exec_followsTable (hs : s.valid) (i : Instr) : ∃ t, exec i s = .next t ∧ FollowsTable i s t := by
  by_cases hphase : s.engine.phase = .unconf
  · by_cases hconsults : consultsDispatcher i = true
    · exact exec_followsTable_of_consults hs hconsults
    · refine exec_followsTable_of_unconf hs hphase ?_
      cases i <;> simp_all [consultsDispatcher]
  · obtain ⟨v, l, n, res, hlive⟩ := hs.exists_live hphase
    induction i using instr_cases with
    | init v seed => exact exec_followsTable_of_consults hs (by cases v <;> rfl)
    | update b => exact hlive.update_followsTable b
    | final => exact hlive.final_followsTable
    | reset seed => exact hlive.reset_followsTable seed
    | hash v seed b => exact exec_followsTable_of_consults hs (by cases v <;> rfl)
    | caps => exact exec_followsTable_of_consults hs rfl

theorem exec_keeps_valid {i : Instr} (hs : s.valid) (h : exec i s = .next t) : t.valid := by
  obtain ⟨u, hu, -, -, hvalid⟩ := exec_followsTable hs i
  rw [h] at hu
  cases hu
  exact hvalid

/-- Settles O46: the table, without the validity of the next state. -/
theorem acceptanceTableHolds : Obligations.AcceptanceTableHolds := by
  intro i s hs
  obtain ⟨t, hexec, ⟨r, hresponses, hstatus⟩, hphase, -⟩ := exec_followsTable hs i
  exact ⟨t, r, hexec, hresponses, hstatus, hphase⟩

/-! ### Steps of valid states -/

/-- Settles O50: a step is idle, a refusal, or a command that follows the table. -/
theorem stepKeepsValidity : Obligations.StepKeepsValidity := by
  intro s t hs h
  obtain rfl | ⟨c, rest, -, hissue⟩ := step_next_cases h
  · exact hs
  · have hs' : State.valid { s with pending := rest } := hs.of_eq rfl rfl rfl
    obtain rfl | rfl | ⟨i, -, hexec⟩ := issue_next_cases hissue
    · exact hs.of_eq rfl rfl rfl
    · exact hs.of_eq rfl rfl rfl
    · exact exec_keeps_valid hs' hexec

theorem issue_ne_fault (hs : s.valid) (c : Command) (f : Fault) : issue c s ≠ .fault f := by
  intro h
  unfold issue at h
  split at h
  · cases h
  · cases h
  · rename_i i _
    split at h
    · obtain ⟨t, hexec, -⟩ := exec_followsTable hs i
      rw [hexec] at h
      cases h
    · cases h

/-- Settles O51: of the parts of a step only a command can fault, and on a valid state none does. -/
theorem validStatesNeverFault : Obligations.ValidStatesNeverFault := by
  intro s f hs h
  cases hpending : s.pending with
  | nil =>
    rw [step_of_idle hpending] at h
    cases h
  | cons c rest =>
    rw [step_of_pending hpending] at h
    exact issue_ne_fault (State.valid.of_eq (t := { s with pending := rest }) hs rfl rfl rfl) c f h

/-! ### The path is not observable (R113, R140) -/

/-- Two states whose engines differ in the path alone, under the same `P`; of the dispatcher, the probe answer and
the host's lists nothing is said. -/
def DifferInPath (s t : State) : Prop :=
  (∃ q, t.engine = { s.engine with path := q }) ∧ t.params = s.params

theorem sameButPath_iff : sameButPath s t ↔
    DifferInPath s t ∧ t.pending = s.pending ∧ t.responses = s.responses := by
  have hengine : ({ s.engine with path := none } : Engine) = { t.engine with path := none } ↔
      ∃ q, t.engine = { s.engine with path := q } := by
    rcases t with ⟨⟨⟩⟩
    simp [eq_comm]
  rw [sameButPath, hengine, DifferInPath, eq_comm (a := s.params), eq_comm (a := s.pending),
    eq_comm (a := s.responses), and_assoc]

/-- Completed commands that give the same response and leave states that differ in the path alone. -/
def AnswerAlike (i : Instr) (s t : State) : Prop :=
  ∃ s' t' r, exec i s = .next s' ∧ exec i t = .next t' ∧ Answered s s' r ∧ Answered t t' r ∧ DifferInPath s' t'

/-- `INIT` writes every engine field but the path from its operands and `P`. -/
theorem init_answerAlike (hs : s.valid) (ht : t.valid) (hparams : t.params = s.params) (v : Variant) (seed : Word) :
    AnswerAlike (initOf v seed) s t := by
  refine ⟨_, _, _, exec_initOf_of_capsAre (capsAre_of_valid hs) v seed,
    exec_initOf_of_capsAre (capsAre_of_valid ht) v seed, answered_respond .., answered_respond ..,
    ⟨some (capsPath (probedCaps t.probe)), ?_⟩, hparams⟩
  rw [respond_engine, hparams]
  cases v <;> rfl

/-- So does `HASH`, and its digest is a function of its operands and `P` (R140). -/
theorem hash_answerAlike (hs : s.valid) (ht : t.valid) (hparams : t.params = s.params) (v : Variant) (seed : Word)
    (b : List Byte) : AnswerAlike (hashOf v seed b) s t := by
  refine ⟨_, _, _, exec_hashOf_of_capsAre (capsAre_of_valid hs) v seed b,
    exec_hashOf_of_capsAre (capsAre_of_valid ht) v seed b, answered_respond .., ?_,
    ⟨some (capsPath (probedCaps t.probe)), ?_⟩, hparams⟩
  · rw [← hparams]
    exact answered_respond ..
  · rw [respond_engine, hparams]
    cases v <;> rfl

/-- Two states refused alike differ as before. -/
theorem misuse_answerAlike {i : Instr} {status : Status} {value : Option RespValue} (h : DifferInPath s t)
    (hvalue : status ≠ .errRefinalize → value = none)
    (hs : exec i s = .next (misuse status value s)) (ht : exec i t = .next (misuse status value t)) :
    AnswerAlike i s t :=
  ⟨_, _, _, hs, ht, answered_misuse status value hvalue, answered_misuse status value hvalue, h⟩

theorem DifferInPath.phase_eq (h : DifferInPath s t) : t.engine.phase = s.engine.phase := by
  obtain ⟨⟨q, hq⟩, -⟩ := h
  rw [hq]

/-- Two such engines are in the middle of the same stream. -/
theorem DifferInPath.streams (h : DifferInPath s t) (hs : s.engine.Streams v l n res) :
    t.engine.Streams v l n res := by
  obtain ⟨⟨q, hq⟩, -⟩ := h
  rw [hq]
  exact hs.of_other_fields s.engine.phase q s.engine.digest

/-- Before the first construction `UPDATE`, `FINAL` and `RESET` are refused on both. -/
theorem DifferInPath.answerAlike_of_unconf (h : DifferInPath s t) (hphase : s.engine.phase = .unconf) {i : Instr}
    (hi : (∃ c, i = .update c) ∨ i = .final ∨ ∃ seed, i = .reset seed) : AnswerAlike i s t :=
  misuse_answerAlike h (fun _ => rfl) (unconfiguredEngineRefuses i s hphase hi)
    (unconfiguredEngineRefuses i t (h.phase_eq.trans hphase) hi)

theorem DifferInPath.update_answerAlike (h : DifferInPath s t) (hs : s.Live v l n res) (b : List Byte) :
    AnswerAlike (.update b) s t := by
  rcases phase_cases hs.phase with hfinal | hfed
  · exact misuse_answerAlike h (fun _ => rfl) (exec_update_of_final hfinal b)
      (exec_update_of_final (h.phase_eq.trans hfinal) b)
  · refine ⟨_, _, _, exec_update_of_streams hfed hs.streams b,
      exec_update_of_streams (by rwa [h.phase_eq]) (h.streams hs.streams) b, answered_respond .., answered_respond ..,
      ⟨t.engine.path, ?_⟩, h.2⟩
    obtain ⟨⟨q, hq⟩, hparams⟩ := h
    rw [respond_engine, respond_engine, hparams, hq]
    cases v <;> rfl

theorem DifferInPath.final_answerAlike (h : DifferInPath s t) (hs : s.Live v l n res) (ht : t.valid) :
    AnswerAlike .final s t := by
  rcases phase_cases hs.phase with hfinal | hfed
  · obtain ⟨d, hd, -⟩ := hs.digest hfinal
    have hd' : t.engine.digest = some d := by
      obtain ⟨⟨q, hq⟩, -⟩ := h
      rw [hq, hd]
    exact misuse_answerAlike h (fun hstatus => absurd rfl hstatus)
      (secondFinalShowsHeldDigest s v d hfinal hs.streams.variant hd)
      (secondFinalShowsHeldDigest t v d (h.phase_eq.trans hfinal) (h.streams hs.streams).variant hd')
  · obtain ⟨_, _, _, _, hlive⟩ := ht.exists_live (by rw [h.phase_eq]; exact hs.phase)
    refine ⟨_, _, _, exec_final_of_streams hfed hs.streams fun _ => hs.path_isSome,
      exec_final_of_streams (by rwa [h.phase_eq]) (h.streams hs.streams) fun _ => hlive.path_isSome,
      answered_respond .., ?_,
      ⟨t.engine.path, ?_⟩, h.2⟩
    · rw [← h.2]
      exact answered_respond ..
    · obtain ⟨⟨q, hq⟩, hparams⟩ := h
      rw [respond_engine, respond_engine, hparams, hq]

theorem DifferInPath.reset_answerAlike (h : DifferInPath s t) (hs : s.Live v l n res) (seed : Word) :
    AnswerAlike (.reset seed) s t := by
  refine ⟨_, _, _, exec_reset_of_variant hs.phase hs.streams.variant seed,
    exec_reset_of_variant (by rw [h.phase_eq]; exact hs.phase) (h.streams hs.streams).variant seed,
    answered_respond .., answered_respond .., ⟨t.engine.path, ?_⟩, h.2⟩
  rw [respond_engine, respond_engine, h.2]
  cases v <;> rfl

/-- `CAPS` shows the probe's answer and nothing else (R139). -/
theorem DifferInPath.caps_answerAlike (h : DifferInPath s t) (hs : s.valid) (ht : t.valid)
    (hprobe : t.probe = s.probe) : AnswerAlike .caps s t := by
  refine ⟨_, _, _, exec_caps_of_capsAre (capsAre_of_valid hs), exec_caps_of_capsAre (capsAre_of_valid ht),
    answered_respond .., ?_, h⟩
  rw [← hprobe]
  exact answered_respond ..

/-- Valid states that differ in the path alone answer every command alike; `CAPS` if the probe answers are the
same. -/
theorem DifferInPath.answerAlike (h : DifferInPath s t) (hs : s.valid) (ht : t.valid) (i : Instr)
    (hcaps : i = .caps → t.probe = s.probe) : AnswerAlike i s t := by
  by_cases hphase : s.engine.phase = .unconf
  case pos =>
    induction i using instr_cases with
    | init v seed => exact init_answerAlike hs ht h.2 v seed
    | update b => exact h.answerAlike_of_unconf hphase (.inl ⟨b, rfl⟩)
    | final => exact h.answerAlike_of_unconf hphase (.inr (.inl rfl))
    | reset seed => exact h.answerAlike_of_unconf hphase (.inr (.inr ⟨seed, rfl⟩))
    | hash v seed b => exact hash_answerAlike hs ht h.2 v seed b
    | caps => exact h.caps_answerAlike hs ht (hcaps rfl)
  case neg =>
    obtain ⟨v, l, n, res, hlive⟩ := hs.exists_live hphase
    induction i using instr_cases with
    | init v seed => exact init_answerAlike hs ht h.2 v seed
    | update b => exact h.update_answerAlike hlive b
    | final => exact h.final_answerAlike hlive ht
    | reset seed => exact h.reset_answerAlike hlive seed
    | hash v seed b => exact hash_answerAlike hs ht h.2 v seed b
    | caps => exact h.caps_answerAlike hs ht (hcaps rfl)

/-- Settles O53: each command answers alike, validity is kept, and the same response is appended on both sides. -/
theorem noResponseDependsOnPath : Obligations.NoResponseDependsOnPath := by
  intro i s t hs ht hsame hi
  obtain ⟨hdiffer, hpending, hresponses⟩ := sameButPath_iff.1 hsame
  obtain ⟨s', t', r, hexec, hexec', hr, hr', hdiffer'⟩ := hdiffer.answerAlike hs ht i fun h => absurd h hi
  refine ⟨s', t', hexec, hexec', exec_keeps_valid hs hexec, exec_keeps_valid ht hexec',
    sameButPath_iff.2 ⟨hdiffer', ?_, ?_⟩⟩
  · rw [hr.pending, hr'.pending, hpending]
  · rw [hr.responses, hr'.responses, hresponses]

end Sys2Proof.Machine
end

section
/-! Proofs about sequences of commands (45_commands.md section 8, R141). -/

namespace Sys2Proof.Machine

variable {s t : State} {v : Variant} {l : LanesOf v} {n : Word} {res : List Byte}

/-! ### Runs -/

theorem runInstrs_cons_of_next {i : Instr} (h : exec i s = .next t) (is : List Instr) :
    runInstrs (i :: is) s = runInstrs is t := by
  rw [runInstrs, h]

/-- A run of two sequences, the first of which completes. -/
theorem runInstrs_append_of_next {is : List Instr} (h : runInstrs is s = .next t) (js : List Instr) :
    runInstrs (is ++ js) s = runInstrs js t := by
  induction is generalizing s with
  | nil =>
    cases h
    rfl
  | cons i is ih =>
    cases hexec : exec i s with
    | next u =>
      rw [runInstrs_cons_of_next hexec] at h
      rw [List.cons_append, runInstrs_cons_of_next hexec, ih h]
    | fault f => simp [runInstrs, hexec] at h
    | refused r => simp [runInstrs, hexec] at h

theorem runInstrs_singleton {i : Instr} (h : exec i s = .next t) : runInstrs [i] s = .next t :=
  runInstrs_cons_of_next h []

/-- The responses of a run that completes are those it appended. -/
theorem responsesOf_of_next {is : List Instr} {rs : List Response} (h : runInstrs is s = .next t)
    (hresponses : t.responses = s.responses ++ rs) : responsesOf is s = some rs := by
  rw [responsesOf, h]
  simp [hresponses]

theorem digestAfter_of_responses {is : List Instr} {rs : List Response} {st : Status} {bs : List Byte}
    (h : responsesOf is s = some (rs ++ [{ status := st, value := some (.digest bs) }])) :
    digestAfter is s = some bs := by
  simp [digestAfter, h, shownDigest]

/-! ### Full blocks of a concatenation (R133) -/

section
variable {α : Type} {f : α → List Byte → α}

/-- Mixing a string and then another is mixing their concatenation: what is left of the first is put before the
second. By induction on the number of full blocks of the first. -/
theorem mixBlocks_append (lanes : α) (a b : List Byte) :
    mixBlocks f lanes (a ++ b) = mixBlocks f (mixBlocks f lanes a) (residue a ++ b) ∧
      residue (a ++ b) = residue (residue a ++ b) := by
  induction hk : a.length / blockBytes generalizing lanes a with
  | zero =>
    have hshort : a.length < blockBytes := (Nat.div_eq_zero_iff_lt (by decide)).1 hk
    rw [mixBlocks_of_short hshort, residue_of_short hshort]
    exact ⟨rfl, rfl⟩
  | succ k ih =>
    have hlong : blockBytes ≤ a.length := by
      by_contra hshort
      rw [Nat.div_eq_of_lt (by omega)] at hk
      cases hk
    have hblk : (a.take blockBytes).length = blockBytes := List.length_take_of_le hlong
    have hcount : (a.drop blockBytes).length / blockBytes = k := by
      have hsplit := block_count (s := a.drop blockBytes) hblk
      rw [List.take_append_drop, hk] at hsplit
      omega
    obtain ⟨hmix, hrest⟩ := ih (f lanes (a.take blockBytes)) (a.drop blockBytes) hcount
    have hleft : a ++ b = a.take blockBytes ++ (a.drop blockBytes ++ b) := by
      rw [← List.append_assoc, List.take_append_drop]
    have hmixed : mixBlocks f lanes a = mixBlocks f (f lanes (a.take blockBytes)) (a.drop blockBytes) := by
      conv_lhs => rw [← List.take_append_drop blockBytes a]
      exact mixBlocks_block hblk
    have hresidue : residue a = residue (a.drop blockBytes) := by
      conv_lhs => rw [← List.take_append_drop blockBytes a]
      exact residue_block hblk
    rw [hleft, mixBlocks_block hblk, residue_block hblk, hmixed, hresidue]
    exact ⟨hmix, hrest⟩

end

/-! ### A stream of `UPDATE`s -/

/-- The response without a value that accepts a command. -/
def accepted : Response := { status := .ok, value := none }

/-- The state after the bytes `b` have been fed in `k` commands, in phase `ph`. -/
def fedState (s : State) (v : Variant) (l : LanesOf v) (n : Word) (res b : List Byte) (k : Nat) (ph : Phase) : State :=
  { s with
    engine := { streamEngine s.engine v (mixBlocks (blockLanes s.params v) l (res ++ b))
      (n + BitVec.ofNat 64 b.length) (residue (res ++ b)) with phase := ph }
    responses := s.responses ++ List.replicate k accepted }

theorem fedState_nil (h : s.engine.Streams v l n res) : fedState s v l n res [] 0 s.engine.phase = s := by
  have hshort : res.length < blockBytes := h.length ▸ fill_lt n
  have hsame : streamEngine s.engine v (mixBlocks (blockLanes s.params v) l (res ++ []))
      (n + BitVec.ofNat 64 ([] : List Byte).length) (residue (res ++ [])) = s.engine := by
    rw [List.append_nil, mixBlocks_of_short hshort, residue_of_short hshort, List.length_nil]
    exact (congrArg (streamEngine s.engine v l · res) (BitVec.add_zero n)).trans h.streamEngine_eq
  rw [fedState, hsame, List.replicate_zero, List.append_nil]

/-- Feeding twice is feeding the concatenation. -/
theorem fedState_fedState (b b' : List Byte) (k k' : Nat) (ph ph' : Phase) :
    fedState (fedState s v l n res b k ph) v (mixBlocks (blockLanes s.params v) l (res ++ b))
      (n + BitVec.ofNat 64 b.length) (residue (res ++ b)) b' k' ph' = fedState s v l n res (b ++ b') (k + k') ph' := by
  obtain ⟨hmix, hrest⟩ := mixBlocks_append (f := blockLanes s.params v) l (res ++ b) b'
  have hcount : n + BitVec.ofNat 64 (b ++ b').length =
      n + BitVec.ofNat 64 b.length + BitVec.ofNat 64 b'.length := by
    rw [List.length_append, BitVec.ofNat_add, BitVec.add_assoc]
  simp only [fedState, ← List.append_assoc, hmix, hrest, hcount, List.replicate_add]
  cases v <;> rfl

theorem fedState_streams (h : s.engine.Streams v l n res) (b : List Byte) (k : Nat) (ph : Phase) :
    (fedState s v l n res b k ph).engine.Streams v (mixBlocks (blockLanes s.params v) l (res ++ b))
      (n + BitVec.ofNat 64 b.length) (residue (res ++ b)) :=
  (h.absorbed b _).of_other_fields ph _ _

/-- However a string is cut into chunks, one `UPDATE` per chunk feeds the string. -/
theorem runInstrs_updates (hphase : s.engine.phase = .empty ∨ s.engine.phase = .accum)
    (h : s.engine.Streams v l n res) (chunks : List (List Byte)) :
    ∃ ph, (ph = .empty ∨ ph = .accum) ∧
      runInstrs (chunks.map Instr.update) s = .next (fedState s v l n res chunks.flatten chunks.length ph) := by
  induction chunks generalizing s l n res with
  | nil => exact ⟨s.engine.phase, hphase, congrArg _ (fedState_nil h).symm⟩
  | cons b chunks ih =>
    have hupdate : exec (.update b) s = .next (fedState s v l n res b 1 .accum) :=
      exec_update_of_streams hphase h b
    obtain ⟨ph, hph, hrun⟩ := ih (.inr rfl) (fedState_streams h b 1 .accum)
    refine ⟨ph, hph, ?_⟩
    rw [List.map_cons, runInstrs_cons_of_next hupdate, hrun, fedState_fedState, List.flatten_cons,
      List.length_cons, Nat.add_comm]

/-! ### Construction, feeding and finalisation of a stream (R141 items 1 and 3) -/

/-- The state after a construction. -/
def initState (s : State) (v : Variant) (seed : Word) (c : Caps) : State :=
  respond accepted { s with
    dispatcher := { capsValid := true, caps := some c }
    engine := freshEngine s.params v seed (some (capsPath c)) }

/-- The response that accepts a command and shows a digest. -/
def shows (v : Variant) (d : Word128) : Response :=
  { status := .ok, value := some (.digest (digestValue v d)) }

/-- `INIT` and one `UPDATE` per chunk. -/
theorem runInstrs_init_updates {c : Caps} (hcaps : s.capsAre c) (v : Variant) (seed : Word)
    (chunks : List (List Byte)) :
    ∃ ph, (ph = .empty ∨ ph = .accum) ∧
      runInstrs ([initOf v seed] ++ chunks.map Instr.update) s =
        .next (fedState (initState s v seed c) v (seedLanes s.params v seed) 0 [] chunks.flatten chunks.length ph) := by
  have hfresh : (initState s v seed c).engine.Streams v (seedLanes s.params v seed) 0 [] :=
    freshEngine_streams s.params v seed _
  obtain ⟨ph, hph, hrun⟩ := runInstrs_updates (.inl (freshEngine_phase ..)) hfresh chunks
  exact ⟨ph, hph, (runInstrs_cons_of_next (exec_initOf_of_capsAre hcaps v seed) _).trans hrun⟩

/-- A stream in any chunks ends in the engine and the dispatcher of one-shot hashing of the whole string, and its
last response shows the same digest. -/
theorem runInstrs_stream {c : Caps} (hcaps : s.capsAre c) (v : Variant) (seed : Word) (chunks : List (List Byte)) :
    runInstrs (streamCommands v seed chunks) s = .next { s with
      dispatcher := { capsValid := true, caps := some c }
      engine := hashedEngine s.params v seed chunks.flatten (some (capsPath c))
      responses := s.responses ++ ((accepted :: List.replicate chunks.length accepted) ++
        [shows v (hashDigest s.params v seed chunks.flatten)]) } := by
  obtain ⟨ph, hph, hrun⟩ := runInstrs_init_updates hcaps v seed chunks
  have hfed := fedState_streams (s := initState s v seed c) (freshEngine_streams s.params v seed _)
    chunks.flatten chunks.length ph
  have hfinal := exec_final_of_streams hph hfed fun _ => by simp [fedState, initState]
  rw [streamCommands, runInstrs_append_of_next hrun, runInstrs_singleton hfinal]
  simp [fedState, initState, respond, hashedEngine, hashDigest, shows, accepted]

theorem responsesOf_stream {c : Caps} (hcaps : s.capsAre c) (v : Variant) (seed : Word) (chunks : List (List Byte)) :
    responsesOf (streamCommands v seed chunks) s = some ((accepted :: List.replicate chunks.length accepted) ++
      [shows v (hashDigest s.params v seed chunks.flatten)]) :=
  responsesOf_of_next (runInstrs_stream hcaps v seed chunks) rfl

theorem responsesOf_hashOf {c : Caps} (hcaps : s.capsAre c) (v : Variant) (seed : Word) (b : List Byte) :
    responsesOf [hashOf v seed b] s = some [shows v (hashDigest s.params v seed b)] :=
  responsesOf_of_next (runInstrs_singleton (exec_hashOf_of_capsAre hcaps v seed b)) rfl

/-- Settles O33: both ways end as `runInstrs_stream` says. -/
theorem streamingEqualsOneShot : Obligations.StreamingEqualsOneShot := by
  intro v seed chunks s hs
  have hcaps := capsAre_of_valid hs
  refine ⟨⟨_, _, runInstrs_stream hcaps v seed chunks, exec_hashOf_of_capsAre hcaps v seed chunks.flatten,
    rfl, rfl, ?_⟩,
    digestValue v (hashDigest s.params v seed chunks.flatten), ?_, ?_, ?_⟩
  · rw [respond_responses, ← List.append_assoc, List.getLast?_concat, List.getLast?_concat, shows]
  · exact digestAfter_of_responses (responsesOf_stream hcaps v seed chunks)
  · have hone := responsesOf_stream hcaps v seed [chunks.flatten]
    rw [List.flatten_singleton] at hone
    exact digestAfter_of_responses hone
  · exact digestAfter_of_responses (rs := []) (responsesOf_hashOf hcaps v seed chunks.flatten)

/-- A digest on the wire has the width of its variant (R55). -/
theorem digestValue_length (v : Variant) (d : Word128) : (digestValue v d).length = digestBytes v :=
  storeLE_length _ _

/-- Settles O35: the stream of no chunk. -/
theorem emptyInputHasDigest : Obligations.EmptyInputHasDigest :=
  fun v seed _ hs => ⟨_, digestValue_length v _, responsesOf_stream (capsAre_of_valid hs) v seed []⟩

/-- Settles O39: the stream before its `FINAL`. -/
theorem streamBuffersItsLastBytes : Obligations.StreamBuffersItsLastBytes := by
  intro v seed chunks s hs
  obtain ⟨ph, -, hrun⟩ := runInstrs_init_updates (capsAre_of_valid hs) v seed chunks
  exact ⟨_, hrun, congrArg some (BitVec.zero_add _), rfl⟩

/-! ### Sequences answered alike (R140, R141 items 2, 5 and 6) -/

/-- Valid states that differ in the path alone answer every sequence alike; one with `CAPS` if the probe answers
are the same. By induction on the sequence, one command by `DifferInPath.answerAlike`. -/
theorem DifferInPath.runInstrs_alike (h : DifferInPath s t) (hs : s.valid) (ht : t.valid) (is : List Instr)
    (hcaps : .caps ∈ is → t.probe = s.probe) :
    ∃ s' t' rs, runInstrs is s = .next s' ∧ runInstrs is t = .next t' ∧
      s'.responses = s.responses ++ rs ∧ t'.responses = t.responses ++ rs := by
  induction is generalizing s t with
  | nil => exact ⟨s, t, [], rfl, rfl, (List.append_nil _).symm, (List.append_nil _).symm⟩
  | cons i is ih =>
    obtain ⟨s1, t1, r, hexec, hexec', hr, hr', h1⟩ :=
      h.answerAlike hs ht i fun hi => hcaps (hi ▸ List.mem_cons_self)
    obtain ⟨s', t', rs, hrun, hrun', hrs, hrs'⟩ := ih h1 (exec_keeps_valid hs hexec) (exec_keeps_valid ht hexec')
      fun hi => by rw [hr.probe, hr'.probe, hcaps (List.mem_cons_of_mem i hi)]
    refine ⟨s', t', r :: rs, ?_, ?_, ?_, ?_⟩
    · rw [runInstrs_cons_of_next hexec, hrun]
    · rw [runInstrs_cons_of_next hexec', hrun']
    · rw [hrs, hr.responses, List.append_assoc, List.singleton_append]
    · rw [hrs', hr'.responses, List.append_assoc, List.singleton_append]

/-- Settles O37: neither state has a `CAPS` to answer. -/
theorem noSequenceShowsThePath : Obligations.NoSequenceShowsThePath := by
  intro is s t hs ht hsame hnone
  obtain ⟨hdiffer, -⟩ := sameButPath_iff.1 hsame
  obtain ⟨s', t', rs, hrun, hrun', hrs, hrs'⟩ :=
    hdiffer.runInstrs_alike hs ht is fun hmem => absurd rfl (hnone _ hmem)
  exact ⟨rs, responsesOf_of_next hrun hrs, responsesOf_of_next hrun' hrs'⟩

/-- Settles O38: the response shows `hashDigest`, a function of variant, seed, bytes and `P`. -/
theorem hashIsAFunctionOfItsOperands : Obligations.HashIsAFunctionOfItsOperands := by
  intro v seed b s u hs hu hparams
  refine ⟨_, responsesOf_hashOf (capsAre_of_valid hs) v seed b, ?_⟩
  rw [hparams]
  exact responsesOf_hashOf (capsAre_of_valid hu) v seed b

/-- Settles O34: `RESET` and `INIT` answer the same and leave the same engine, from which every sequence is
answered alike. -/
theorem resetRespondsAsFreshEngine : Obligations.ResetRespondsAsFreshEngine := by
  intro seed v is s u hs hu hparams hprobe hphase hv
  have hreset := exec_reset_of_variant hphase hv seed
  have hinit := exec_initOf_of_capsAre (capsAre_of_valid hu) v seed
  have hdiffer : DifferInPath
      (respond accepted { s with engine := freshEngine s.params v seed s.engine.path })
      (initState u v seed (probedCaps u.probe)) := by
    refine ⟨⟨some (capsPath (probedCaps u.probe)), ?_⟩, hparams.symm⟩
    rw [initState, respond_engine, respond_engine, hparams]
    cases v <;> rfl
  obtain ⟨s', u', rs, hrun, hrun', hrs, hrs'⟩ := hdiffer.runInstrs_alike (exec_keeps_valid hs hreset)
    (exec_keeps_valid hu hinit) is fun _ => hprobe.symm
  refine ⟨accepted :: rs, responsesOf_of_next ((runInstrs_cons_of_next hreset is).trans hrun) ?_,
    responsesOf_of_next ((runInstrs_cons_of_next hinit is).trans hrun') ?_⟩
  · rw [hrs, respond_responses, List.append_assoc, List.singleton_append]
  · rw [hrs', initState, respond_responses, List.append_assoc, List.singleton_append]

/-! ### Misuse of a finalised engine (R141 item 4) -/

/-- `FINAL` and `UPDATE` on a finalised engine give the response of the misuse and change nothing else. -/
theorem exec_misuseResponse {d : Word128} (hphase : s.engine.phase = .final) (hv : s.engine.variant = some v)
    (hd : s.engine.digest = some d) {i : Instr} (hi : i = .final ∨ ∃ c, i = .update c) :
    exec i s = .next (respond (misuseResponse v d i) s) := by
  rcases hi with rfl | ⟨c, rfl⟩
  · have hheld : heldDigest s = .ok (.digest (digestValue v d)) := heldDigest_ok_iff.2 ⟨v, d, hv, hd, rfl⟩
    exact execFinal_next_iff.2 (.inr (.inl ⟨hphase, _, hheld, rfl⟩))
  · exact exec_update_of_final hphase c

/-- Settles O36: by induction on the sequence, since a refusal leaves the engine as it was. -/
theorem misuseIsReportedEveryTime : Obligations.MisuseIsReportedEveryTime := by
  intro is s v d hphase hv hd hall
  induction is generalizing s with
  | nil => rw [List.map_nil, List.append_nil, runInstrs]
  | cons i is ih =>
    have hexec := exec_misuseResponse hphase hv hd (hall i List.mem_cons_self)
    have hrest := ih (respond (misuseResponse v d i) s) hphase hv hd fun j hj => hall j (List.mem_cons_of_mem i hj)
    rw [runInstrs_cons_of_next hexec, hrest, respond_responses, List.append_assoc, List.singleton_append,
      List.map_cons]
    rfl

end Sys2Proof.Machine
end

section
/-! Proofs about several engines under one dispatcher (60_exceptions.md section 4, 44_dispatcher.md R125), and the
state after hardware reset (10_state.md section 8). -/

namespace Sys2Proof.Machine

variable {s t : State}

/-! ### Hardware reset (R25) -/

/-- The state after hardware reset: phase `UNCONF` with the engine of reset, and no result of detection. -/
theorem reset_valid : State.reset.valid :=
  ⟨⟨fun _ => rfl, fun h => absurd rfl h, nofun, nofun, fun _ => rfl, nofun⟩, rfl, fun h => absurd rfl h⟩

/-- Settles O49: field by field, and the invariants by `reset_valid`. -/
theorem resetStateIsValid : Obligations.ResetStateIsValid :=
  ⟨reset_valid, snapshot_of_phase_ne nofun, rfl, rfl, rfl, rfl, rfl, rfl, rfl, fun _ => rfl, rfl, rfl, rfl, rfl⟩

/-- Settles O54: every engine starts as that of `State.reset`. -/
theorem deviceResetIsValid : Obligations.DeviceResetIsValid := by
  intro n
  have hport {p : Port} (hp : p ∈ (deviceReset n).ports) :
      p = { engine := Engine.reset, pending := [], responses := [] } := List.eq_of_mem_replicate hp
  refine ⟨fun p hp => ?_, List.length_replicate, fun p hp => by rw [hport hp]; rfl⟩
  rw [hport hp]
  exact reset_valid.of_eq rfl rfl rfl

/-! ### A step and the dispatcher (R120) -/

/-- A step writes neither `P` nor the probe answer. -/
theorem step_config (h : step s = .next t) : t.params = s.params ∧ t.probe = s.probe := by
  obtain rfl | ⟨c, rest, -, hissue⟩ := step_next_cases h
  · exact ⟨rfl, rfl⟩
  · obtain ⟨r, hr⟩ := issue_answered hissue
    exact ⟨hr.params, hr.probe⟩

/-- A step leaves the dispatcher alone, or as detection does. -/
theorem step_dispatcher (h : step s = .next t) :
    t.dispatcher = s.dispatcher ∨ t.dispatcher = detect s.probe s.dispatcher := by
  obtain rfl | ⟨c, rest, -, hissue⟩ := step_next_cases h
  · exact .inl rfl
  · obtain rfl | rfl | ⟨i, -, hexec⟩ := issue_next_cases hissue
    · exact .inl rfl
    · exact .inl rfl
    · have hdispatcher := exec_dispatcher hexec
      split at hdispatcher
      · exact .inr hdispatcher
      · exact .inl hdispatcher

/-- Detection runs once (R120). -/
theorem detect_detect (q : Probe) (d : Dispatcher) : detect q (detect q d) = detect q d := by
  obtain ⟨hran, hruns⟩ := detect_eq q d
  cases hvalid : d.capsValid with
  | true => rw [hran hvalid, hran hvalid]
  | false =>
    rw [hruns hvalid]
    rfl

/-- The state in which detection has run. -/
def detected (s : State) : State := { s with dispatcher := detect s.probe s.dispatcher }

/-- An outcome with its next state changed. -/
def mapNext (f : State → State) : Host.Outcome State Fault Refusal → Host.Outcome State Fault Refusal
  | .next s => .next (f s)
  | .fault r => .fault r
  | .refused r => .refused r

theorem mapNext_eq_next_iff {f : State → State} {o : Host.Outcome State Fault Refusal} :
    mapNext f o = .next t ↔ ∃ u, o = .next u ∧ t = f u := by
  cases o <;> simp [mapNext, eq_comm]

/-- Construction does not see whether detection has run before it. -/
theorem construct_detected (v : Variant) (seed : Word) (s : State) :
    construct v seed (detected s) = construct v seed s := by
  simp only [construct, detected, detect_detect]

theorem exec_detected_of_consults {i : Instr} (hi : consultsDispatcher i = true) (s : State) :
    exec i (detected s) = exec i s := by
  induction i using instr_cases with
  | init v seed => rw [exec_initOf, exec_initOf, construct_detected]
  | hash v seed b => rw [exec_hashOf, exec_hashOf, oneShot, oneShot, construct_detected]
  | caps => simp only [exec, execCaps, detected, detect_detect]
  | update b => cases hi
  | final => cases hi
  | reset seed => cases hi

theorem answerPlain_detected (x : Except Fault State) :
    answerPlain (x.map detected) = mapNext detected (answerPlain x) := by
  cases x <;> rfl

theorem answerDigest_detected (x : Except Fault State) :
    answerDigest (x.map detected) = mapNext detected (answerDigest x) := by
  cases x with
  | error f => rfl
  | ok u =>
    have hheld : heldDigest (detected u) = heldDigest u := rfl
    simp only [answerDigest, Except.map, bind, Except.bind, hheld]
    cases heldDigest u <;> rfl

theorem feed_detected (b : List Byte) (s : State) : feed b (detected s) = (feed b s).map detected := by
  simp only [feed, detected]
  cases absorbAll s.params b s.engine <;> rfl

theorem reseed_detected (seed : Word) (s : State) : reseed seed (detected s) = (reseed seed s).map detected := by
  simp only [reseed, detected]
  cases s.engine.variant <;> rfl

theorem finish_detected (s : State) : finish (detected s) = (finish s).map detected := by
  simp only [finish, detected]
  cases finalDigest s.params s.engine <;> rfl

theorem refinalize_detected (s : State) : refinalize (detected s) = mapNext detected (refinalize s) := by
  have hheld : heldDigest (detected s) = heldDigest s := rfl
  simp only [refinalize, hheld]
  cases heldDigest s <;> rfl

theorem execUpdate_detected (b : List Byte) (s : State) :
    execUpdate b (detected s) = mapNext detected (execUpdate b s) := by
  have hphase : (detected s).engine.phase = s.engine.phase := rfl
  unfold execUpdate
  rw [hphase, feed_detected]
  cases updateStatus s.engine.phase with
  | ok => exact answerPlain_detected _
  | _ => rfl

theorem execReset_detected (seed : Word) (s : State) :
    execReset seed (detected s) = mapNext detected (execReset seed s) := by
  have hphase : (detected s).engine.phase = s.engine.phase := rfl
  unfold execReset
  rw [hphase, reseed_detected]
  cases resetStatus s.engine.phase with
  | ok => exact answerPlain_detected _
  | _ => rfl

theorem execFinal_detected (s : State) : execFinal (detected s) = mapNext detected (execFinal s) := by
  have hphase : (detected s).engine.phase = s.engine.phase := rfl
  unfold execFinal
  rw [hphase, finish_detected, refinalize_detected]
  cases finalStatus s.engine.phase with
  | ok => exact answerDigest_detected _
  | _ => rfl

/-- A command on a state in which detection has run ends as on the state itself, with detection run. A command
that consults the dispatcher does not see the difference; the others carry the dispatcher along. -/
theorem exec_detected (i : Instr) (s : State) : exec i (detected s) = mapNext detected (exec i s) := by
  by_cases hconsults : consultsDispatcher i = true
  case pos =>
    rw [exec_detected_of_consults hconsults]
    cases hexec : exec i s with
    | next t =>
      obtain ⟨r, hr⟩ := exec_answered hexec
      have hdispatcher := exec_dispatcher hexec
      rw [if_pos hconsults] at hdispatcher
      have hsame : detected t = t := by
        rw [detected, hr.probe, hdispatcher, detect_detect, ← hdispatcher, ← hr.probe]
      rw [mapNext, hsame]
    | fault f => rfl
    | refused r => rfl
  case neg =>
    induction i using instr_cases with
    | init v seed => cases v <;> exact absurd rfl hconsults
    | update b => exact execUpdate_detected b s
    | final => exact execFinal_detected s
    | reset seed => exact execReset_detected seed s
    | hash v seed b => cases v <;> exact absurd rfl hconsults
    | caps => exact absurd rfl hconsults

theorem issue_detected (c : Command) (s : State) : issue c (detected s) = mapNext detected (issue c s) := by
  unfold issue
  cases decode c with
  | badCmd => rfl
  | badVariant => rfl
  | instr i =>
    by_cases hlength : i.wellFormed = true
    · simp only [hlength, if_true, exec_detected]
    · simp only [hlength, mapNext]
      rfl

/-- A step of a state in which detection has run. -/
theorem step_detected (s : State) : step (detected s) = mapNext detected (step s) := by
  cases hpending : s.pending with
  | nil =>
    rw [step_of_idle hpending, step_of_idle (s := detected s) hpending, mapNext]
  | cons c rest =>
    rw [step_of_pending hpending, step_of_pending (s := detected s) hpending]
    exact issue_detected c { s with pending := rest }

/-! ### The dispatcher after two steps

From one dispatcher `d` each of two engines leaves it alone or runs detection; after both, detection has run if
either ran it, whichever came first. -/

/-- The dispatcher after two steps, from what each leaves of `d`. -/
def mergeDispatcher (d d1 d2 : Dispatcher) : Dispatcher := if d1 = d then d2 else d1

theorem mergeDispatcher_comm {q : Probe} {d d1 d2 : Dispatcher} (h1 : d1 = d ∨ d1 = detect q d)
    (h2 : d2 = d ∨ d2 = detect q d) : mergeDispatcher d d1 d2 = mergeDispatcher d d2 d1 := by
  unfold mergeDispatcher
  by_cases hrun : detect q d = d
  · rw [hrun] at h1 h2
    rcases h1 with rfl | rfl <;> rcases h2 with rfl | rfl <;> rfl
  · rcases h1 with rfl | rfl <;> rcases h2 with rfl | rfl <;> simp [hrun]

/-- A step after another engine's step has left the dispatcher as `d1`: it completes exactly if it would have
completed before, and ends in the same state but for the dispatcher. -/
theorem step_withDispatcher_next_iff {d1 : Dispatcher}
    (hd1 : d1 = s.dispatcher ∨ d1 = detect s.probe s.dispatcher) :
    step { s with dispatcher := d1 } = .next t ↔
      ∃ u, step s = .next u ∧ t = { u with dispatcher := mergeDispatcher s.dispatcher d1 u.dispatcher } := by
  by_cases hsame : d1 = s.dispatcher
  case pos => simp [hsame, mergeDispatcher, eq_comm]
  case neg =>
    obtain rfl : d1 = detect s.probe s.dispatcher := hd1.resolve_left hsame
    have hmerge {u : State} (hu : step s = .next u) : detected u =
        { u with dispatcher := mergeDispatcher s.dispatcher (detect s.probe s.dispatcher) u.dispatcher } := by
      have hran : detect s.probe u.dispatcher = detect s.probe s.dispatcher := by
        rcases step_dispatcher hu with hd | hd <;> simp only [hd, detect_detect]
      rw [detected, (step_config hu).2, hran, mergeDispatcher, if_neg hsame]
    have hstep := step_detected s
    rw [detected] at hstep
    rw [hstep, mapNext_eq_next_iff]
    exact ⟨fun ⟨u, hu, ht⟩ => ⟨u, hu, ht.trans (hmerge hu)⟩,
      fun ⟨u, hu, ht⟩ => ⟨u, hu, ht.trans (hmerge hu).symm⟩⟩

/-! ### Steps of a device (R125, R156) -/

section
variable {d d1 : Device} {k l : Nat} {p p' : Port}

/-- A step of an engine that there is not changes nothing; one of an engine that there is, is its step. -/
theorem stepPort_next_iff : stepPort k d = .next d1 ↔
    (d.ports[k]? = none ∧ d1 = d) ∨
      ∃ p u, d.ports[k]? = some p ∧ step (portState d p) = .next u ∧ d1 = putPort k u d := by
  unfold stepPort
  cases d.ports[k]? with
  | none => simp [eq_comm]
  | some p => cases hstep : step (portState d p) <;> simp [hstep, eq_comm]

theorem stepTwo_next_iff :
    stepTwo k l d = .next d1 ↔ ∃ d', stepPort k d = .next d' ∧ stepPort l d' = .next d1 := by
  unfold stepTwo
  cases stepPort k d <;> simp

theorem putPort_ports_ne (hkl : k ≠ l) (u : State) (d : Device) : (putPort k u d).ports[l]? = d.ports[l]? :=
  List.getElem?_set_ne hkl

/-- Settles O57: a step writes the port of its own engine. -/
theorem enginesDoNotDisturbEachOther : Obligations.EnginesDoNotDisturbEachOther := by
  intro d d1 k l hkl h
  obtain ⟨-, rfl⟩ | ⟨p, u, -, -, rfl⟩ := stepPort_next_iff.1 h
  · rfl
  · exact putPort_ports_ne hkl u d

/-- Settles O55: the engine that stepped is valid by O50, and detection keeps the others valid. -/
theorem deviceStepKeepsValidity : Obligations.DeviceStepKeepsValidity := by
  intro d d1 k hd h
  obtain ⟨-, rfl⟩ | ⟨p, u, hp, hstep, rfl⟩ := stepPort_next_iff.1 h
  · exact hd
  · have hvalid := stepKeepsValidity _ _ (hd p (List.mem_of_getElem? hp)) hstep
    obtain ⟨hparams, hprobe⟩ := step_config hstep
    intro p' hp'
    rcases List.mem_or_eq_of_mem_set hp' with hother | rfl
    · have hp'valid := hd p' hother
      rcases step_dispatcher hstep with hdispatcher | hdispatcher
      · exact hp'valid.of_eq rfl hdispatcher rfl
      · exact hp'valid.of_detected rfl (hdispatcher.trans (detect_of_valid hp'valid.2.1)) rfl
    · rwa [portState_statePort (putPort k u d) u rfl hparams hprobe]

/-- Two steps of different engines, as the steps each makes alone: the ports are written one after the other,
the dispatcher is what the two leave of it together. -/
theorem stepTwo_next_iff_of_ports (hkl : k ≠ l) (hk : d.ports[k]? = some p) (hl : d.ports[l]? = some p') :
    stepTwo k l d = .next d1 ↔ ∃ u w, step (portState d p) = .next u ∧ step (portState d p') = .next w ∧
      d1 = { d with
        dispatcher := mergeDispatcher d.dispatcher u.dispatcher w.dispatcher
        ports := (d.ports.set k (statePort u)).set l (statePort w) } := by
  have hsecond {u : State} (hu : step (portState d p) = .next u) : stepPort l (putPort k u d) = .next d1 ↔
      ∃ w, step (portState d p') = .next w ∧ d1 = { d with
        dispatcher := mergeDispatcher d.dispatcher u.dispatcher w.dispatcher
        ports := (d.ports.set k (statePort u)).set l (statePort w) } := by
    have hl' : (putPort k u d).ports[l]? = some p' := (putPort_ports_ne hkl u d).trans hl
    have hleft : u.dispatcher = (portState d p').dispatcher ∨
        u.dispatcher = detect (portState d p').probe (portState d p').dispatcher :=
      step_dispatcher (s := portState d p) hu
    have hstep {t : State} := step_withDispatcher_next_iff (t := t) hleft
    rw [stepPort_next_iff, hl']
    constructor
    · rintro (⟨hnone, -⟩ | ⟨q, t, hq, ht, rfl⟩)
      · cases hnone
      · cases hq
        obtain ⟨w, hw, rfl⟩ := hstep.1 ht
        exact ⟨w, hw, rfl⟩
    · rintro ⟨w, hw, rfl⟩
      exact .inr ⟨p', _, rfl, hstep.2 ⟨w, hw, rfl⟩, rfl⟩
  rw [stepTwo_next_iff]
  constructor
  · rintro ⟨d', hfirst, hnext⟩
    obtain ⟨hnone, -⟩ | ⟨q, u, hq, hu, rfl⟩ := stepPort_next_iff.1 hfirst
    · rw [hk] at hnone
      cases hnone
    · cases hk.symm.trans hq
      obtain ⟨w, hw, rfl⟩ := (hsecond hu).1 hnext
      exact ⟨u, w, hu, hw, rfl⟩
  · rintro ⟨u, w, hu, hw, hd1⟩
    exact ⟨_, stepPort_next_iff.2 (.inr ⟨p, u, hk, hu, rfl⟩), (hsecond hu).2 ⟨w, hw, hd1⟩⟩

theorem stepPort_of_none (h : d.ports[k]? = none) : stepPort k d = .next d := by
  rw [stepPort, h]

/-- Settles O56: on two engines that there are, both orders write the same two ports and merge to the same
dispatcher; a step of an engine that there is not is no step. -/
theorem commandsOnDifferentEnginesCommute : Obligations.CommandsOnDifferentEnginesCommute := by
  intro d d1 k l hkl _ h
  cases hk : d.ports[k]? with
  | none =>
    obtain ⟨d', hfirst, hsecond⟩ := stepTwo_next_iff.1 h
    cases (stepPort_of_none hk).symm.trans hfirst
    have hnone := enginesDoNotDisturbEachOther d d1 l k hkl.symm hsecond
    exact stepTwo_next_iff.2 ⟨d1, hsecond, stepPort_of_none (hnone.trans hk)⟩
  | some p =>
    cases hl : d.ports[l]? with
    | none =>
      obtain ⟨d', hfirst, hsecond⟩ := stepTwo_next_iff.1 h
      have hnone := enginesDoNotDisturbEachOther d d' k l hkl hfirst
      cases (stepPort_of_none (hnone.trans hl)).symm.trans hsecond
      exact stepTwo_next_iff.2 ⟨d, stepPort_of_none hl, hfirst⟩
    | some p' =>
      obtain ⟨u, w, hu, hw, rfl⟩ := (stepTwo_next_iff_of_ports hkl hk hl).1 h
      refine (stepTwo_next_iff_of_ports hkl.symm hl hk).2 ⟨w, u, hw, hu, ?_⟩
      have hmerge : mergeDispatcher d.dispatcher u.dispatcher w.dispatcher =
          mergeDispatcher d.dispatcher w.dispatcher u.dispatcher :=
        mergeDispatcher_comm (q := d.probe) (step_dispatcher hu) (step_dispatcher hw)
      rw [hmerge, List.set_comm _ _ hkl]

end

end Sys2Proof.Machine
end
